-- ==== Sys2Proof/Syntax.lean ====
section
/-! DEFINITION. The commands of the opcode table (30_encoding.md R80). -/

namespace Sys2Proof

/-- One constructor per row of spec/opcode_table.json. No command has an immediate or an operand field: the
operands are registers and streams named by the command's own rule (R79). -/
inductive Instr where
  /-- NOP, 44_control.md R160. -/
  | nop
  /-- ZZENC, 40_zigzag.md R103. -/
  | zzenc
  /-- ZZDEC, 40_zigzag.md R104. -/
  | zzdec
  /-- UENC, 41_vlq_encoder.md R113. -/
  | uenc
  /-- SENC, 43_signed.md R150. -/
  | senc
  /-- UDEC, 42_vlq_decoder.md R134. -/
  | udec
  /-- SDEC, 43_signed.md R151. -/
  | sdec
  /-- ENC_OPEN, 44_control.md R161. -/
  | encOpen
  /-- ENC_CLOSE, 44_control.md R162. -/
  | encClose
  /-- DEC_OPEN, 44_control.md R163. -/
  | decOpen
  /-- DEC_CLOSE, 44_control.md R164. -/
  | decClose
deriving DecidableEq, Repr

end Sys2Proof
end

