-- ==== Sys2Proof/Word.lean ====
section
/-! DEFINITION. The two bit-vector types of the block: a byte on the wire and a 64-bit register word
(00_scope.md R4). -/

namespace Sys2Proof

/-- One byte of a stream: a digit of the wire format (R4, R70). -/
abbrev Byte := BitVec 8

/-- A 64-bit register or command word (R4, R21). -/
abbrev Word := BitVec 64

end Sys2Proof
end

