-- ==== Sys2Proof/Decode.lean ====
section
/-! DEFINITION. The decoder of a command word and its encoder (30_encoding.md R78, R80, R81). -/

namespace Sys2Proof

/-- Why a word is not a legal command. Both reasons end in ILLEGAL_COMMAND (R81, R182). The names are the model's. -/
inductive DecodeError where
  /-- RSV, bits 63:8, is not 0. -/
  | reservedBitsSet
  /-- OPC is in none of the rows of R80. -/
  | opcodeUnassigned
deriving DecidableEq, Repr

/-- R78: the opcode field, bits 7:0. -/
def opc (c : Word) : BitVec 8 := c.extractLsb' 0 8

/-- R78: the reserved field, bits 63:8. -/
def rsv (c : Word) : BitVec 56 := c.extractLsb' 8 56

/-- The opcode map of R80. -/
def instrOfOpcode (o : BitVec 8) : Option Instr :=
  match o with
  | 0x00#8 => some .nop
  | 0x01#8 => some .zzenc
  | 0x02#8 => some .zzdec
  | 0x10#8 => some .uenc
  | 0x11#8 => some .senc
  | 0x20#8 => some .udec
  | 0x21#8 => some .sdec
  | 0x30#8 => some .encOpen
  | 0x31#8 => some .encClose
  | 0x38#8 => some .decOpen
  | 0x39#8 => some .decClose
  | _ => none

/-- The command a word encodes (R78, R80), or why it is illegal (R81). Total on all 2^64 words. -/
def decode (c : Word) : Except DecodeError Instr :=
  if rsv c = 0#56 then
    match instrOfOpcode (opc c) with
    | some i => .ok i
    | none => .error .opcodeUnassigned
  else .error .reservedBitsSet

/-- The opcode of a command, column OPC of R80. -/
def opcodeOf (i : Instr) : BitVec 8 :=
  match i with
  | .nop => 0x00#8
  | .zzenc => 0x01#8
  | .zzdec => 0x02#8
  | .uenc => 0x10#8
  | .senc => 0x11#8
  | .udec => 0x20#8
  | .sdec => 0x21#8
  | .encOpen => 0x30#8
  | .encClose => 0x31#8
  | .decOpen => 0x38#8
  | .decClose => 0x39#8

/-- The 64-bit word that the host writes to CMD for a command: OPC in bits 7:0, RSV all 0 (R78). -/
def encode (i : Instr) : Word := (opcodeOf i).setWidth 64

/-- The word an opcode-table row of `nbits` bits stands for: bits above `nbits`, up to the one 64-bit word of a
command, are 0. -/
def tableWord (nbits w : Nat) : Word := BitVec.ofNat 64 (w % 2 ^ min nbits 64)

/-- The command the decoder reads from the table's bits `w`, bit 0 the least significant bit of the one 64-bit word. -/
def decodeTableWord (nbits w : Nat) : Option Instr :=
  match decode (tableWord nbits w) with
  | .ok i => some i
  | .error _ => none

end Sys2Proof
end

