-- ==== Sys2Proof/Machine/State.lean ====
section
/-! DEFINITION. The state of the block (10_state.md R39), the host's moves and what the host has read, the reasons a step
can stop, and the state right after reset. -/

namespace Sys2Proof.Machine

/-- One event of SinkLog (R36). -/
inductive SinkEvent where
  /-- `Append(b)`: the sink was given byte b. -/
  | append (b : Byte)
  /-- `Close`: the sink was closed. -/
  | close
deriving DecidableEq, Repr

/-- How a BULK_DEC ended (42_vlq_decoder.md R136). -/
inductive BulkEnd where
  /-- The source was exhausted at a value boundary. -/
  | clean
  /-- Any other error, a truncated last value among them. -/
  | failed
deriving DecidableEq, Repr

/-- What the host, or the platform around it, does next (20_memory.md R63). DESIGN CHOICE (log 1): the spec has the host
sequence the commands from outside, and the model holds its pending moves in the state. -/
inductive HostMove where
  /-- A write of `data` to offset `off` of the window, `width` bytes wide: MemWrite (R51). -/
  | store (off width : Nat) (data : Word)
  /-- A read at offset `off` of the window, `width` bytes wide: MemRead (R51). -/
  | load (off width : Nat)
  /-- The host adds bytes at the tail of SourceQueue (R35, R63). -/
  | feed (bytes : List Byte)
  /-- The host reads SinkLog (R36, R63). -/
  | readSink
  /-- A reset between commands (R200). -/
  | reset
  /-- A reset that arrives while the command word `c`, written to CMD, executes (93 U1). -/
  | resetDuring (c : Word)
  /-- The host loop BULK_ENC over the values not yet encoded (R84, R116). -/
  | bulkEnc (values : List Word)
  /-- Inside BULK_ENC: `LD STATUS` and a stop on ERR ≠ 0, else on with the values left (R84). -/
  | bulkEncCheck (values : List Word)
  /-- The host loop BULK_DEC with the values decoded so far (R84, R136); a program starts it with none. -/
  | bulkDec (got : List Word)
  /-- Inside BULK_DEC: `LD STATUS ; LD RESULT` and the loop's test (R84, R136). -/
  | bulkDecCheck (got : List Word)
deriving DecidableEq, Repr

/-- What the host has read. DESIGN CHOICE (log 2): the model's own record, which no command reads. -/
inductive Seen where
  /-- A read of the window at `off` returned `value` (R51). -/
  | loaded (off : Nat) (value : Word)
  /-- A read of SinkLog returned these events (R63). -/
  | sinkLog (events : List SinkEvent)
  /-- A BULK_DEC ended with these values (R136). -/
  | bulkDecoded (values : List Word) (how : BulkEnd)
deriving DecidableEq, Repr

/-- Why the machine stops. The block has no trap and no stop of its own (60_exceptions.md R189): its errors are states. -/
inductive Fault where
  /-- Raised by a host access whose offset is 0x40 or more, which is no access to the block's window (R50). Safe: the
  spec gives such an access no effect on the block (log 5). -/
  | outsideWindow
deriving DecidableEq, Repr

/-- Why a step is refused. -/
inductive Refusal where
  /-- Raised by an arm of `exec` whose command has no meaning yet. No arm raises it. Safe. -/
  | notModelled (mnemonic : String)
  /-- Raised by a window access that is not an aligned 64-bit one at 0x00 to 0x28, only in a model with
  `Config.admitOddAccess` = false (93 U6). Safe. -/
  | oddAccess
  /-- Raised by a read of STATUS whose ERR is above 5 or whose NBYTES is above 11: values that are never produced, on
  which a model should refuse (93 U2). No run reaches it. Safe (log 6). -/
  | reservedStatus
deriving DecidableEq, Repr

/-- The state of the block and of its two streams (R39), then the model's own fields. CMD and the reserved offsets hold no
state (R31, R34), and STATUS is put together from its fields (R39). -/
structure State where
  /-- OPERAND (R22). -/
  operand : Word
  /-- RESULT (R23). -/
  result : Word
  /-- STATUS.ERR, bits 3:0 (R26). -/
  err : BitVec 4
  /-- STATUS.NBYTES, bits 7:4 (R27). -/
  nbytes : BitVec 4
  /-- STATUS.ENC_OPEN, bit 8 (R28). -/
  encOpen : Bool
  /-- STATUS.DEC_OPEN, bit 9 (R29). -/
  decOpen : Bool
  /-- ENC_BASE (R32). -/
  encBase : Word
  /-- DEC_BASE (R33). -/
  decBase : Word
  /-- SourceQueue, head first (R35). -/
  source : List Byte
  /-- SinkLog, oldest event first (R36). -/
  sinkLog : List SinkEvent
  /-- The model's own: what the host does next, first move first (log 1). -/
  moves : List HostMove
  /-- The model's own: what the host has read, newest first (log 2). -/
  seen : List Seen
  /-- The model's own: the number of the next free value (log 7). -/
  freeCount : Nat
deriving DecidableEq, Repr

/-- The machine right after reset (70_reset_and_hazards.md R200, values of R21). The streams are empty and no move is
pending: the spec gives neither stream a reset value (R35, R36). DESIGN CHOICE (log 3): unsafe. -/
def State.reset : State :=
  { operand := 0#64
    result := 0#64
    err := 0#4
    nbytes := 0#4
    encOpen := true
    decOpen := true
    encBase := 0#64
    decBase := 0#64
    source := []
    sinkLog := []
    moves := []
    seen := []
    freeCount := 0 }

end Sys2Proof.Machine
end

