-- ==== Sys2Proof/Machine/Asm.lean ====
section
/-! DEFINITION. Host programs: their statements, the moves each statement stands for and the text they are written in
(30_encoding.md R82, R83, R84). -/

namespace Sys2Proof.Machine

/-- The registers a statement may name (R82). -/
inductive Reg where
  | cmd
  | operand
  | result
  | status
  | encBase
  | decBase
deriving DecidableEq, Repr

/-- off(reg): the register's offset in the window (R21, R82). -/
def regOffset (r : Reg) : Nat :=
  match r with
  | .cmd => 0x00
  | .operand => 0x08
  | .result => 0x10
  | .status => 0x18
  | .encBase => 0x20
  | .decBase => 0x28

/-- One statement of a host program (R82, R83, R84). A command's operand is held as the 64-bit image that its expansion
stores. -/
inductive Stmt where
  /-- `ST <reg>, <imm64>`. -/
  | st (r : Reg) (v : Word)
  /-- `LD <reg>`. -/
  | ld (r : Reg)
  /-- A command mnemonic, with its operand or with the OPERAND already held. -/
  | cmd (i : Instr) (operand : Option Word)
  /-- `BULK_ENC v_1, ..., v_k`. -/
  | bulkEnc (values : List Word)
  /-- `BULK_DEC`. -/
  | bulkDec
deriving DecidableEq, Repr

/-- What a command's written operand is (R79, R83). -/
inductive OperandKind where
  | none
  | unsigned
  | signed
deriving DecidableEq, Repr

/-- The operand column of R83. -/
def operandKind (i : Instr) : OperandKind :=
  match i with
  | .nop => .none
  | .zzenc => .signed
  | .zzdec => .unsigned
  | .uenc => .unsigned
  | .senc => .signed
  | .udec => .none
  | .sdec => .none
  | .encOpen => .unsigned
  | .encClose => .none
  | .decOpen => .unsigned
  | .decClose => .none

/-- A statement writes an operand only for a command that R83 gives one. -/
def stmtWellFormed (x : Stmt) : Bool :=
  match x with
  | .cmd i (some _) => operandKind i != OperandKind.none
  | _ => true

/-- A store of `v` to a register (R82): the pair (offset, 64-bit data). -/
def storeTo (r : Reg) (v : Word) : HostMove := .store (regOffset r) 8 v

/-- A load of a register (R82). -/
def loadFrom (r : Reg) : HostMove := .load (regOffset r) 8

/-- The moves a statement stands for (R82, R83, R84). -/
def expand (x : Stmt) : List HostMove :=
  match x with
  | .st r v => [storeTo r v]
  | .ld r => [loadFrom r]
  | .cmd i (some v) => [storeTo .operand v, storeTo .cmd (encode i)]
  | .cmd i none => [storeTo .cmd (encode i)]
  | .bulkEnc vs => [.bulkEnc vs]
  | .bulkDec => [.bulkDec []]

/-- The host takes up a program after its pending moves (log 1). -/
def loadProgram (program : List Stmt) (s : State) : State := { s with moves := s.moves ++ program.flatMap expand }

/-! ## The text of a program. DESIGN CHOICE (log 11): R82 and R83 give the words, one statement a line and `;` before a
comment; that blanks and tabs separate words, that a comma is a word of its own and that letters are as printed is the
model's reading. -/

/-- A word ends: it is kept if it has a letter (its letters stand in reverse). -/
def endWord (word : List Char) (rest : List (List Char)) : List (List Char) :=
  if word.isEmpty then rest else word.reverse :: rest

/-- The words of one line, up to its comment. -/
def wordsOf (line word : List Char) : List (List Char) :=
  match line with
  | [] => endWord word []
  | c :: cs =>
    if c == ';' then endWord word []
    else if c == ',' then endWord word ([','] :: wordsOf cs [])
    else if c == ' ' || c == '\t' || c == '\r' then endWord word (wordsOf cs [])
    else wordsOf cs (c :: word)

/-- The value of a decimal or hexadecimal digit. -/
def digitValue (base : Nat) (c : Char) : Option Nat :=
  let n := c.toNat
  let v := if 48 ≤ n && n ≤ 57 then n - 48
    else if 65 ≤ n && n ≤ 70 then n - 55
    else if 97 ≤ n && n ≤ 102 then n - 87
    else base
  if v < base then some v else none

/-- The number a string of digits stands for, most significant first. -/
def digitsValue (base acc : Nat) (cs : List Char) : Option Nat :=
  match cs with
  | [] => some acc
  | c :: rest =>
    match digitValue base c with
    | some d => digitsValue base (acc * base + d) rest
    | none => none

/-- A number with at least one digit. -/
def numberOf (base : Nat) (cs : List Char) : Option Nat :=
  if cs.isEmpty then none else digitsValue base 0 cs

/-- A decimal number, a `0x` hexadecimal number or a negative decimal number (R82). -/
def integerOf (word : List Char) : Option Int :=
  match word with
  | '-' :: cs => (numberOf 10 cs).map (fun n => -(n : Int))
  | '0' :: 'x' :: cs => (numberOf 16 cs).map Int.ofNat
  | cs => (numberOf 10 cs).map Int.ofNat

/-- A number between two bounds, as its 64-bit image (toU64, R6). -/
def boundedImage (low high : Int) (word : List Char) : Option Word :=
  match integerOf word with
  | some n => if low ≤ n ∧ n ≤ high then some (BitVec.ofInt 64 n) else none
  | none => none

/-- `<imm64>` (R82): every number with a 64-bit image, signed or unsigned. -/
def imm64Of (word : List Char) : Option Word := boundedImage (-2 ^ 63) (2 ^ 64 - 1) word

/-- `<u64>` (R83). -/
def u64Of (word : List Char) : Option Word := boundedImage 0 (2 ^ 64 - 1) word

/-- `<s64>` (R83). -/
def s64Of (word : List Char) : Option Word := boundedImage (-2 ^ 63) (2 ^ 63 - 1) word

/-- The register a word names (R82). -/
def regOf (word : List Char) : Option Reg :=
  if word == "CMD".toList then some .cmd
  else if word == "OPERAND".toList then some .operand
  else if word == "RESULT".toList then some .result
  else if word == "STATUS".toList then some .status
  else if word == "ENC_BASE".toList then some .encBase
  else if word == "DEC_BASE".toList then some .decBase
  else none

/-- The command a word names (R80, R83). -/
def mnemonicOf (word : List Char) : Option Instr :=
  if word == "NOP".toList then some .nop
  else if word == "ZZENC".toList then some .zzenc
  else if word == "ZZDEC".toList then some .zzdec
  else if word == "UENC".toList then some .uenc
  else if word == "SENC".toList then some .senc
  else if word == "UDEC".toList then some .udec
  else if word == "SDEC".toList then some .sdec
  else if word == "ENC_OPEN".toList then some .encOpen
  else if word == "ENC_CLOSE".toList then some .encClose
  else if word == "DEC_OPEN".toList then some .decOpen
  else if word == "DEC_CLOSE".toList then some .decClose
  else none

/-- The values after the first of a BULK_ENC: each a comma and a `<u64>` (R84). -/
def moreValues (words : List (List Char)) : Option (List Word) :=
  match words with
  | [] => some []
  | comma :: w :: rest =>
    if comma == [','] then
      match u64Of w, moreValues rest with
      | some v, some vs => some (v :: vs)
      | _, _ => none
    else none
  | [_] => none

/-- The values of a BULK_ENC; there may be none (R116). -/
def valuesOf (words : List (List Char)) : Option (List Word) :=
  match words with
  | [] => some []
  | w :: rest =>
    match u64Of w, moreValues rest with
    | some v, some vs => some (v :: vs)
    | _, _ => none

/-- A command mnemonic with the words after it (R83): no operand, or the one its kind allows. -/
def commandOf (i : Instr) (words : List (List Char)) : Option Stmt :=
  match words, operandKind i with
  | [], _ => some (.cmd i none)
  | [w], .unsigned => (u64Of w).map (fun v => .cmd i (some v))
  | [w], .signed => (s64Of w).map (fun v => .cmd i (some v))
  | _, _ => none

/-- The statement that the words of one line spell (R82, R83, R84). -/
def stmtOf (words : List (List Char)) : Option Stmt :=
  match words with
  | [] => none
  | head :: rest =>
    if head == "ST".toList then
      match rest with
      | [r, comma, w] =>
        match regOf r, imm64Of w with
        | some reg, some v => if comma == [','] then some (.st reg v) else none
        | _, _ => none
      | _ => none
    else if head == "LD".toList then
      match rest with
      | [r] => (regOf r).map Stmt.ld
      | _ => none
    else if head == "BULK_ENC".toList then (valuesOf rest).map Stmt.bulkEnc
    else if head == "BULK_DEC".toList then (if rest.isEmpty then some .bulkDec else none)
    else
      match mnemonicOf head with
      | some i => commandOf i rest
      | none => none

/-- The lines of a text. -/
def linesOf (text line : List Char) : List (List Char) :=
  match text with
  | [] => [line.reverse]
  | c :: cs => if c == '\n' then line.reverse :: linesOf cs [] else linesOf cs (c :: line)

/-- The statements of the lines; a line with no word has none. -/
def stmtsOf (lines : List (List Char)) : Option (List Stmt) :=
  match lines with
  | [] => some []
  | line :: rest =>
    let words := wordsOf line []
    if words.isEmpty then stmtsOf rest
    else
      match stmtOf words, stmtsOf rest with
      | some x, some xs => some (x :: xs)
      | _, _ => none

/-- The program a text spells, or nothing if a line spells no statement (R82). -/
def parseProgram (text : List Char) : Option (List Stmt) := stmtsOf (linesOf text [])

end Sys2Proof.Machine
end

