-- ==== Sys2Proof/Config.lean ====
section
/-! DEFINITION. What is fixed for the block (00_scope.md R4), the one model parameter (93_implementation_defined.md U6)
and the free values of a reset that arrives during a command (U1). -/

namespace Sys2Proof

/-- R4, R72: the longest valid encoding, in digits. -/
def Config.maxLen : Nat := 10

/-- R4, R135: the most bytes one decode takes. -/
def Config.maxRead : Nat := 11

/-- R4: the largest value of the unsigned domain, 2^64 − 1. -/
def Config.maxU64 : Nat := 2 ^ 64 - 1

/-- R50: the size in bytes of the register window. -/
def Config.windowBytes : Nat := 64

/-- 93 U6, at its default: accesses other than aligned 64-bit ones at 0x00 to 0x28 have R51's meaning (they are
ignored, or read 0) and are not refused. DESIGN CHOICE (log 4): safe, the rule itself gives that meaning. -/
def Config.admitOddAccess : Bool := true

/-- FREE VALUE (93 U1, log 7): how many of a command's sink events the sink holds when the n-th reset during a command
cuts that command short. It has no body on purpose. -/
opaque Config.freeSinkCut : Nat → Nat

/-- FREE VALUE (93 U1, log 7): how many of the bytes the command would have read the source has lost at that reset. -/
opaque Config.freeSourceCut : Nat → Nat

end Sys2Proof
end

