-- ==== Sys2Proof/Machine/Flags.lean ====
section
/-! DEFINITION. STATUS and its fields (10_state.md R25 to R30), and the error codes (60_exceptions.md R181). -/

namespace Sys2Proof.Machine

/-- The errors of R181. Success is no error: its code is 0. -/
inductive Err where
  | insufficientData
  | overflow
  | precondition
  | misuse
  | illegalCommand
deriving DecidableEq, Repr

/-- The value of STATUS.ERR for an error (R26, R181). -/
def Err.code (e : Err) : BitVec 4 :=
  match e with
  | .insufficientData => 1#4
  | .overflow => 2#4
  | .precondition => 3#4
  | .misuse => 4#4
  | .illegalCommand => 5#4

/-- STATUS as the host reads it (R25, R39); bits 63:10 are 0 (R30). -/
def statusWord (s : State) : Word :=
  ((BitVec.ofBool s.decOpen).setWidth 64 <<< 9) ||| ((BitVec.ofBool s.encOpen).setWidth 64 <<< 8) |||
    (s.nbytes.setWidth 64 <<< 4) ||| s.err.setWidth 64

/-- Field ERR of a STATUS word, bits 3:0 (R25). -/
def statusErr (w : Word) : Nat := (w.extractLsb' 0 4).toNat

/-- Field NBYTES of a STATUS word, bits 7:4 (R25). -/
def statusNbytes (w : Word) : Nat := (w.extractLsb' 4 4).toNat

/-- R30, 93 U2: ERR and NBYTES hold values that some command produces. -/
abbrev State.StatusLegal (s : State) : Prop := s.err.toNat ≤ 5 ∧ s.nbytes.toNat ≤ 11

end Sys2Proof.Machine
end

