-- ==== Sys2Proof/Machine/Operands.lean ====
section
/-! DEFINITION. How a command reads its operands (30_encoding.md R79), and the two readings of a 64-bit pattern
(00_scope.md R6). -/

namespace Sys2Proof.Machine

/-- R6: a 64-bit pattern read as two's complement. -/
def toS64 (u : Word) : Int := if u.toNat < 2 ^ 63 then (u.toNat : Int) else (u.toNat : Int) - 2 ^ 64

/-- R6: the inverse of `toS64`, s mod 2^64. -/
def toU64 (x : Int) : Word := BitVec.ofInt 64 x

/-- OPERAND as UENC, ZZDEC, ENC_OPEN and DEC_OPEN read it: unsigned (R79). -/
def operandUnsigned (s : State) : Word := s.operand

/-- OPERAND as ZZENC and SENC read it: two's complement (R79). -/
def operandSigned (s : State) : Int := toS64 s.operand

end Sys2Proof.Machine
end

