-- ==== Sys2Proof/Machine/Ops.lean ====
section
/-! DEFINITION. The operations that the commands and the host's moves share: bit primitives, ending a command with or
without an error, the streams, the register window and reset. -/

namespace Sys2Proof.Machine

/-- R9: bit i of a byte. -/
def bit (b : Byte) (i : Nat) : Bool := b.getLsbD i

/-- R9: a byte with bit i set. -/
def setbit (b : Byte) (i : Nat) : Byte := b ||| (1#8 <<< i)

/-- The end of a command without error, `n` bytes moved: ERR 0 and NBYTES n (R26, R27). -/
def succeed (n : Nat) (s : State) : State := { s with err := 0#4, nbytes := BitVec.ofNat 4 n }

/-- `raise e(n)` (R187): the block's whole error entry. There is no trap to enter and none to return from (R189, R190). -/
def raiseError (e : Err) (n : Nat) (s : State) : State := { s with err := e.code, nbytes := BitVec.ofNat 4 n }

/-- `SinkAppend` of each byte in order (R54, R57). -/
def sinkAppendAll (bytes : List Byte) (s : State) : State :=
  { s with sinkLog := s.sinkLog ++ bytes.map SinkEvent.append }

/-- `SinkClose()` (R54). -/
def sinkClose (s : State) : State := { s with sinkLog := s.sinkLog ++ [SinkEvent.close] }

/-- The host adds bytes at the tail of SourceQueue (R35, R63). -/
def feedSource (bytes : List Byte) (s : State) : State := { s with source := s.source ++ bytes }

/-- Reset between commands (R200): every register takes its reset value of R21 and the streams keep theirs. The host's own
fields are not the block's, so they stay. -/
def resetRegisters (s : State) : State :=
  { s with operand := 0#64, result := 0#64, err := 0#4, nbytes := 0#4, encOpen := true, decOpen := true,
           encBase := 0#64, decBase := 0#64 }

/-- R50: the access starts inside the 64-byte window. -/
def inWindow (off : Nat) : Bool := off < Config.windowBytes

/-- R51: the accesses that are defined: 8 bytes wide, the offset a multiple of 8, at 0x00 to 0x28. -/
def definedAccess (off width : Nat) : Bool := width == 8 && off % 8 == 0 && off ≤ 0x28

/-- What a 64-bit read of the window returns (R21, R34, R51). -/
def readReg (off : Nat) (s : State) : Word :=
  match off with
  | 0x08 => s.operand
  | 0x10 => s.result
  | 0x18 => statusWord s
  | 0x20 => s.encBase
  | 0x28 => s.decBase
  | _ => 0#64

/-- What a 64-bit write of the window stores (R21): OPERAND alone holds what the host writes. A write to CMD starts a
command and is not this operation. -/
def writeReg (off : Nat) (data : Word) (s : State) : State :=
  match off with
  | 0x08 => { s with operand := data }
  | _ => s

/-- The host records what a read of the window returned (log 2). -/
def recordLoad (off : Nat) (value : Word) (s : State) : State := { s with seen := .loaded off value :: s.seen }

/-- R51 with 93 U6: an access that is not defined leaves the block as it was, or is refused where `admitted` is false. -/
def oddAccess (admitted : Bool) (s : State) : Host.Outcome State Fault Refusal :=
  if admitted then .next s else .refused .oddAccess

/-- The host's next moves, put before those still pending (log 1). -/
def prependMoves (ms : List HostMove) (s : State) : State := { s with moves := ms ++ s.moves }

end Sys2Proof.Machine
end

