-- ==== Sys2Proof/Machine/Control.lean ====
section
/-! DEFINITION. The channel control commands and NOP (44_control.md). -/

namespace Sys2Proof.Machine

/-- NOP (R160). -/
def execNop (s : State) : Host.Outcome State Fault Refusal := .next (succeed 0 s)

/-- ENC_OPEN (R161). -/
def execEncOpen (s : State) : Host.Outcome State Fault Refusal :=
  .next (succeed 0 { s with encBase := operandUnsigned s, encOpen := true })

/-- ENC_CLOSE (R162). -/
def execEncClose (s : State) : Host.Outcome State Fault Refusal :=
  if s.encOpen then .next (succeed 0 { sinkClose s with encOpen := false }) else .next (raiseError .misuse 0 s)

/-- DEC_OPEN (R163). -/
def execDecOpen (s : State) : Host.Outcome State Fault Refusal :=
  .next (succeed 0 { s with decBase := operandUnsigned s, decOpen := true })

/-- DEC_CLOSE (R164). -/
def execDecClose (s : State) : Host.Outcome State Fault Refusal :=
  if s.decOpen then .next (succeed 0 { s with decOpen := false }) else .next (raiseError .misuse 0 s)

end Sys2Proof.Machine
end

