-- ==== Sys2Proof/Machine/Decoder.lean ====
section
/-! DEFINITION. The unsigned VLQ decoder and UDEC (42_vlq_decoder.md). -/

namespace Sys2Proof.Machine

/-- How one vlqUnpack ends (R130). -/
inductive UnpackEnd where
  | ok (v : Word)
  | insufficientData
  | overflow
deriving DecidableEq, Repr

/-- What vlqUnpack answers: how it ended, the number j of bytes taken, and the queue it leaves (R130, R133). -/
structure Unpacked where
  how : UnpackEnd
  taken : Nat
  rest : List Byte
deriving DecidableEq, Repr

/-- The loop of R130 at baseline m: acc is the exact accumulated magnitude and j the position counter. The match on the
queue is `SourceNext()` (R53). The test for overflow comes before the terminal test (R131, R188). -/
def unpackLoop (m acc j : Nat) (queue : List Byte) : Unpacked :=
  match queue with
  | [] => { how := .insufficientData, taken := j, rest := [] }
  | b :: rest =>
    let acc' := acc + (b.toNat % 128 + 1) * 128 ^ j
    if Config.maxU64 < acc' - 1 + m then { how := .overflow, taken := j + 1, rest := rest }
    else if bit b 7 then { how := .ok (BitVec.ofNat 64 (acc' - 1 + m)), taken := j + 1, rest := rest }
    else unpackLoop m acc' (j + 1) rest

/-- R130: one encoded value read from the queue at baseline m. -/
def vlqUnpack (m : Word) (queue : List Byte) : Unpacked := unpackLoop m.toNat 0 0 queue

/-- The body UDEC and SDEC share (R134, R151): the channel first, then the bytes; `post` is what is done to the decoded
value before it is stored in RESULT. -/
def decodeValue (post : Word → Word) (s : State) : State :=
  if s.decOpen then
    let u := vlqUnpack s.decBase s.source
    let t := { s with source := u.rest }
    match u.how with
    | .insufficientData => raiseError .insufficientData u.taken t
    | .overflow => raiseError .overflow u.taken t
    | .ok v => succeed u.taken { t with result := post v }
  else raiseError .misuse 0 s

/-- UDEC (R134). -/
def execUdec (s : State) : Host.Outcome State Fault Refusal := .next (decodeValue (fun v => v) s)

end Sys2Proof.Machine
end

