-- ==== Sys2Proof/Machine/Encoder.lean ====
section
/-! DEFINITION. The unsigned VLQ encoder and UENC (41_vlq_encoder.md). -/

namespace Sys2Proof.Machine

/-- The loop of R110, with a bound on its passes. When the bound is used up the digit is the terminal one. -/
def packLoop (passes : Nat) (x : Nat) : List Byte :=
  match passes with
  | 0 => [setbit (BitVec.ofNat 8 (x % 128)) 7]
  | k + 1 =>
    if 0x7F < x then BitVec.ofNat 8 (x % 128) :: packLoop k (x / 128 - 1)
    else [setbit (BitVec.ofNat 8 (x % 128)) 7]

/-- R110: the bytes of a local magnitude. The loop runs at most 9 times on a u64, so the bound never cuts it short
(log 9). -/
def vlqPack (x : Word) : List Byte := packLoop 9 x.toNat

/-- The body UENC and SENC share (R113, R150): the channel first, then the precondition, then the bytes of v − m. -/
def encodeValue (v : Word) (s : State) : State :=
  if s.encOpen then
    if v.toNat < s.encBase.toNat then raiseError .precondition 0 s
    else
      let bytes := vlqPack (v - s.encBase)
      succeed bytes.length (sinkAppendAll bytes s)
  else raiseError .misuse 0 s

/-- UENC (R113). -/
def execUenc (s : State) : Host.Outcome State Fault Refusal := .next (encodeValue (operandUnsigned s) s)

end Sys2Proof.Machine
end

