-- ==== Sys2Proof/Machine/Zigzag.lean ====
section
/-! DEFINITION. The zigzag transform and its two commands (40_zigzag.md). -/

namespace Sys2Proof.Machine

/-- R100: the zigzag image of a signed value. -/
def zzEnc (x : Int) : Nat := if 0 ≤ x then (2 * x).toNat else (-2 * x - 1).toNat

/-- R101: the signed value a zigzag image stands for. -/
def zzDec (u : Nat) : Int := if u % 2 = 0 then ((u / 2 : Nat) : Int) else -(((u + 1) / 2 : Nat) : Int)

/-- The zigzag image as a 64-bit word; it fits (R100). -/
def zzEncWord (x : Int) : Word := BitVec.ofNat 64 (zzEnc x)

/-- toU64 of the decoded value (R23, R104, R151). -/
def zzDecWord (u : Word) : Word := toU64 (zzDec u.toNat)

/-- ZZENC (R103). -/
def execZzenc (s : State) : Host.Outcome State Fault Refusal :=
  .next (succeed 0 { s with result := zzEncWord (operandSigned s) })

/-- ZZDEC (R104). -/
def execZzdec (s : State) : Host.Outcome State Fault Refusal :=
  .next (succeed 0 { s with result := zzDecWord (operandUnsigned s) })

end Sys2Proof.Machine
end

