-- ==== Sys2Proof/Machine/Signed.lean ====
section
/-! DEFINITION. The signed commands, compositions of the zigzag with the unsigned ones (43_signed.md). -/

namespace Sys2Proof.Machine

/-- SENC (R150): the baseline is compared with the zigzag image, which is not stored in RESULT. -/
def execSenc (s : State) : Host.Outcome State Fault Refusal := .next (encodeValue (zzEncWord (operandSigned s)) s)

/-- SDEC (R151). -/
def execSdec (s : State) : Host.Outcome State Fault Refusal := .next (decodeValue zzDecWord s)

end Sys2Proof.Machine
end

