-- ==== Sys2Proof/Machine/Dispatch.lean ====
section
/-! DEFINITION. The meaning of each command, one arm per row of the opcode map (30_encoding.md R80). -/

namespace Sys2Proof.Machine

def exec (i : Instr) (s : State) : Host.Outcome State Fault Refusal :=
  match i with
  | .nop => Sys2Proof.Machine.execNop s
  | .zzenc => Sys2Proof.Machine.execZzenc s
  | .zzdec => Sys2Proof.Machine.execZzdec s
  | .uenc => Sys2Proof.Machine.execUenc s
  | .senc => Sys2Proof.Machine.execSenc s
  | .udec => Sys2Proof.Machine.execUdec s
  | .sdec => Sys2Proof.Machine.execSdec s
  | .encOpen => Sys2Proof.Machine.execEncOpen s
  | .encClose => Sys2Proof.Machine.execEncClose s
  | .decOpen => Sys2Proof.Machine.execDecOpen s
  | .decClose => Sys2Proof.Machine.execDecClose s

end Sys2Proof.Machine
end

