-- ==== Sys2Proof/Machine/Moves.lean ====
section
/-! DEFINITION. What each move of the host does to the block (20_memory.md R51, R63; 30_encoding.md R84), with reset
(70_reset_and_hazards.md R200) and a reset during a command (93 U1). -/

namespace Sys2Proof.Machine

/-- The command a word written to CMD starts (R31, R78); an illegal word is ILLEGAL_COMMAND and nothing else (R182). -/
def runCommand (c : Word) (s : State) : Host.Outcome State Fault Refusal :=
  match decode c with
  | .ok i => exec i s
  | .error _ => .next (raiseError .illegalCommand 0 s)

/-- A host write to the window (R21, R51). -/
def hostStore (off width : Nat) (data : Word) (s : State) : Host.Outcome State Fault Refusal :=
  if inWindow off then
    if definedAccess off width then
      if off = 0 then runCommand data s else .next (writeReg off data s)
    else oddAccess Config.admitOddAccess s
  else .fault .outsideWindow

/-- A host read of the window (R21, R51). A read of STATUS that meets a value never produced is refused (93 U2, log 6). -/
def hostLoad (off width : Nat) (s : State) : Host.Outcome State Fault Refusal :=
  if inWindow off then
    if definedAccess off width then
      if off = 0x18 ∧ ¬s.StatusLegal then .refused .reservedStatus
      else .next (recordLoad off (readReg off s) s)
    else oddAccess Config.admitOddAccess (recordLoad off 0#64 s)
  else .fault .outsideWindow

/-- What a reset during a command leaves (93 U1): `t` is the state the command would have reached from `s`. The registers
hold their reset values, the sink holds a prefix of the command's events and the source has lost a prefix of the bytes the
command would have read, each of a FREE length (log 7). -/
def cutShort (s t : State) : State :=
  { resetRegisters s with
    sinkLog := s.sinkLog ++ (t.sinkLog.drop s.sinkLog.length).take (Config.freeSinkCut s.freeCount)
    source := s.source.drop (min (Config.freeSourceCut s.freeCount) (s.source.length - t.source.length))
    freeCount := s.freeCount + 1 }

/-- A reset that arrives while the command word `c` executes (93 U1). -/
def resetDuringCommand (c : Word) (s : State) : Host.Outcome State Fault Refusal :=
  match runCommand c s with
  | .next t => .next (cutShort s t)
  | .fault r => .fault r
  | .refused r => .refused r

/-- One turn of BULK_ENC (R84): `UENC v` for the first value left, then the check. -/
def bulkEncTurn (values : List Word) (s : State) : State :=
  match values with
  | [] => s
  | v :: vs => prependMoves (expand (.cmd .uenc (some v)) ++ [.bulkEncCheck vs]) s

/-- BULK_ENC's `LD STATUS`, and a stop on ERR ≠ 0 (R84, R116). -/
def bulkEncCheck (values : List Word) (s : State) : Host.Outcome State Fault Refusal :=
  match hostLoad 0x18 8 s with
  | .next t =>
    if statusErr (statusWord s) = 0 then .next (prependMoves [.bulkEnc values] t) else .next t
  | .fault r => .fault r
  | .refused r => .refused r

/-- One turn of BULK_DEC (R84): `UDEC`, then the check. -/
def bulkDecTurn (got : List Word) (s : State) : State :=
  prependMoves (expand (.cmd .udec none) ++ [.bulkDecCheck got]) s

/-- How BULK_DEC ends on a STATUS with ERR ≠ 0 (R136): cleanly on INSUFFICIENT_DATA with no byte taken. -/
def bulkDecEnd (status : Word) : BulkEnd :=
  if statusErr status = 1 ∧ statusNbytes status = 0 then .clean else .failed

/-- BULK_DEC's `LD STATUS ; LD RESULT`, and its test (R84, R136): on while ERR = 0, with the value decoded. -/
def bulkDecCheck (got : List Word) (s : State) : Host.Outcome State Fault Refusal :=
  match hostLoad 0x18 8 s with
  | .next t =>
    match hostLoad 0x10 8 t with
    | .next u =>
      if statusErr (statusWord s) = 0 then .next (prependMoves [.bulkDec (got ++ [s.result])] u)
      else .next { u with seen := .bulkDecoded got (bulkDecEnd (statusWord s)) :: u.seen }
    | .fault r => .fault r
    | .refused r => .refused r
  | .fault r => .fault r
  | .refused r => .refused r

/-- What a move does. The move itself has already left the list of pending ones. -/
def runMove (m : HostMove) (s : State) : Host.Outcome State Fault Refusal :=
  match m with
  | .store off width data => hostStore off width data s
  | .load off width => hostLoad off width s
  | .feed bytes => .next (feedSource bytes s)
  | .readSink => .next { s with seen := .sinkLog s.sinkLog :: s.seen }
  | .reset => .next (resetRegisters s)
  | .resetDuring c => resetDuringCommand c s
  | .bulkEnc values => .next (bulkEncTurn values s)
  | .bulkEncCheck values => bulkEncCheck values s
  | .bulkDec got => .next (bulkDecTurn got s)
  | .bulkDecCheck got => bulkDecCheck got s

/-- The state with its first pending move taken off. -/
def popMove (s : State) : State := { s with moves := s.moves.tail }

end Sys2Proof.Machine
end

