-- ==== Sys2Proof/Machine/Step.lean ====
section
/-! DEFINITION. One step: the host's next move, done whole (20_memory.md R56). -/

namespace Sys2Proof.Machine

/-- The host's next move, and the command it starts if it writes CMD, in one atomic step (R8, R56). With no move pending the
block is idle and keeps all state (R196; log 10). -/
def step (s : State) : Host.Outcome State Fault Refusal :=
  match s.moves with
  | [] => .next s
  | m :: _ => runMove m (popMove s)

/-- The state with a 64-bit write of the table's word to CMD as the host's very next move (R31, R78; log 1). The block
fetches nothing (R24), so nothing else is needed for the next step to run that command. -/
def State.withFetchWord (s : State) (nbits w : Nat) : State :=
  prependMoves [.store 0x00 8 (tableWord nbits w)] s

end Sys2Proof.Machine
end

