-- ==== Sys2Proof/Safety.lean ====
section
/-! DEFINITION. The terms the claims are stated in: a legal outcome, a list of host moves that stays in the window, a run of
several steps, and the wire format as 30_encoding.md R70 to R74 describes it, apart from the loops of the two codecs. -/

namespace Sys2Proof.Machine

/-- STATUS.ERR with the byte counts that can stand beside it (10_state.md R27, R30; 60_exceptions.md R181). -/
abbrev State.OutcomeLegal (s : State) : Prop :=
  (s.err = 0#4 ∧ s.nbytes.toNat ≤ 10) ∨
  (s.err = Err.insufficientData.code ∧ s.nbytes.toNat ≤ 10) ∨
  (s.err = Err.overflow.code ∧ 1 ≤ s.nbytes.toNat ∧ s.nbytes.toNat ≤ 11) ∨
  ((s.err = Err.precondition.code ∨ s.err = Err.misuse.code ∨ s.err = Err.illegalCommand.code) ∧ s.nbytes = 0#4)

/-- A move that reaches the block's window if it is an access at all (20_memory.md R50). -/
def moveInWindow (m : HostMove) : Bool :=
  match m with
  | .store off _ _ => inWindow off
  | .load off _ => inWindow off
  | .feed _ => true
  | .readSink => true
  | .reset => true
  | .resetDuring _ => true
  | .bulkEnc _ => true
  | .bulkEncCheck _ => true
  | .bulkDec _ => true
  | .bulkDecCheck _ => true

/-- Every pending access of the host is to the block's window. -/
abbrev State.MovesInWindow (s : State) : Prop := ∀ m ∈ s.moves, moveInWindow m = true

/-- What every step keeps, and what a state needs so that its next step is no stop. -/
abbrev State.Good (s : State) : Prop := s.OutcomeLegal ∧ s.MovesInWindow

/-- Up to `n` steps, stopping at the first fault or refusal. -/
def runSteps (n : Nat) (s : State) : Host.Outcome State Fault Refusal :=
  match n with
  | 0 => .next s
  | k + 1 =>
    match step s with
    | .next t => runSteps k t
    | .fault r => .fault r
    | .refused r => .refused r

/-! ## The wire format -/

/-- T_n, the first local magnitude of the n-byte tier (R71): T_1 = 0 and T_{n+1} = T_n + 128^n. -/
def tierStart (n : Nat) : Nat :=
  match n with
  | 0 => 0
  | 1 => 0
  | k + 2 => tierStart (k + 1) + 128 ^ (k + 1)

/-- The digits of bytes summed with their weights, least significant first: Σ d_i · 128^i (R74). -/
def digitSum (bytes : List Byte) : Nat :=
  match bytes with
  | [] => 0
  | b :: rest => b.toNat % 128 + 128 * digitSum rest

/-- The local magnitude that a string of bytes denotes: T_n + Σ d_i · 128^i (R74). -/
def localMagnitude (bytes : List Byte) : Nat := tierStart bytes.length + digitSum bytes

/-- No byte has its terminal flag set (R70). -/
def noTerminal (bytes : List Byte) : Bool := bytes.all (fun b => !bit b 7)

/-- A framed sequence (R74): the terminal flag set on the last byte and on no other. -/
def framed (bytes : List Byte) : Bool :=
  match bytes with
  | [] => false
  | [b] => bit b 7
  | b :: rest => !bit b 7 && framed rest

/-- The n bytes of a local magnitude of the n-byte tier in closed form (R73): digit i of x − T_n in base 128, with 0x80
added on the last. -/
def wireBytes (x n : Nat) : List Byte :=
  (List.range n).map (fun i => BitVec.ofNat 8 ((x - tierStart n) / 128 ^ i % 128 + if i + 1 = n then 128 else 0))

end Sys2Proof.Machine
end

