-- ==== Sys2Proof/WellFormed.lean ====
section
/-! DEFINITION. Which command words are legal, written from 30_encoding.md R78 and from R81's list of reserved opcodes.
The decoder is written from R80's table of assigned ones, so the two can be held against each other. -/

namespace Sys2Proof

/-- R78: the reserved field RSV, bits 63:8, is 0. -/
def rsvClear (c : Word) : Bool := c.toNat / 256 == 0

/-- R81: the opcodes that make a word illegal whatever its RSV is. -/
def opcReserved (o : Nat) : Bool :=
  (0x03 ≤ o && o ≤ 0x0F) || (0x12 ≤ o && o ≤ 0x1F) || (0x22 ≤ o && o ≤ 0x2F) ||
  (0x32 ≤ o && o ≤ 0x37) || (0x3A ≤ o && o ≤ 0xFF)

/-- R78, R81: a word is a legal command when RSV is 0 and OPC, bits 7:0, is not reserved. -/
def legalWord (c : Word) : Bool := rsvClear c && !opcReserved (c.toNat % 256)

end Sys2Proof
end

