-- ==== Sys2Proof/Certificates/Slice0/Obligations.lean ====
section
/-! DEFINITION. The statements for the provers. Each cites the rule of spec/ it formalises. -/

open Sys2Proof Sys2Proof.Machine

/-! ## Encoding and the step -/

/-- R78, R80: of the 2^64 words exactly one decodes to each command, the one the encoder writes. -/
def Obligations.DecodeInvertsEncodeOnEveryWord : Prop :=
  ∀ (c : Word) (i : Instr), decode c = .ok i ↔ c = encode i

/-- R80: the words of the opcode map, written out from the table, decode to their commands. -/
def Obligations.OpcodeMapWordsDecode : Prop :=
  decode 0x0000000000000000#64 = .ok .nop ∧ decode 0x0000000000000001#64 = .ok .zzenc ∧
  decode 0x0000000000000002#64 = .ok .zzdec ∧ decode 0x0000000000000010#64 = .ok .uenc ∧
  decode 0x0000000000000011#64 = .ok .senc ∧ decode 0x0000000000000020#64 = .ok .udec ∧
  decode 0x0000000000000021#64 = .ok .sdec ∧ decode 0x0000000000000030#64 = .ok .encOpen ∧
  decode 0x0000000000000031#64 = .ok .encClose ∧ decode 0x0000000000000038#64 = .ok .decOpen ∧
  decode 0x0000000000000039#64 = .ok .decClose

/-- R81, R182: a word is illegal exactly when RSV is not 0 or its OPC is in R81's ranges, and an illegal word written to CMD
sets ERR 5 and NBYTES 0 and changes nothing else. -/
def Obligations.IllegalWordsReportAndDoNothingElse : Prop :=
  ∀ (c : Word) (s : State),
    ((∃ i, decode c = .ok i) ↔
      ¬(c.toNat / 256 ≠ 0 ∨ (0x03 ≤ c.toNat % 256 ∧ c.toNat % 256 ≤ 0x0F) ∨ (0x12 ≤ c.toNat % 256 ∧ c.toNat % 256 ≤ 0x1F) ∨
        (0x22 ≤ c.toNat % 256 ∧ c.toNat % 256 ≤ 0x2F) ∨ (0x32 ≤ c.toNat % 256 ∧ c.toNat % 256 ≤ 0x37) ∨
        0x3A ≤ c.toNat % 256)) ∧
    ((¬∃ i, decode c = .ok i) → runCommand c s = .next { s with err := 5#4, nbytes := 0#4 })

/-- R31, R78, R56: when the host's next move is a 64-bit write of c to CMD, the step is the whole of the command c decodes
to, run on the state without that move; an illegal c ends in ILLEGAL_COMMAND. -/
def Obligations.StepRunsTheDecodedCommand : Prop :=
  ∀ (s : State) (c : Word) (rest : List HostMove), s.moves = .store 0x00 8 c :: rest →
    (∀ i, decode c = .ok i → step s = exec i { s with moves := rest }) ∧
    (∀ e, decode c = .error e → step s = .next { s with moves := rest, err := 5#4, nbytes := 0#4 })

/-- R78 (log 1): a table word placed as the host's next move is what the next step runs, with nothing else changed. -/
def Obligations.PlacedWordRunsNext : Prop :=
  ∀ (s : State) (nbits w : Nat) (i : Instr), decodeTableWord nbits w = some i →
    step (s.withFetchWord nbits w) = exec i s

/-- R196 (log 10): with no move pending the block keeps all state. -/
def Obligations.IdleKeepsAllState : Prop :=
  ∀ s : State, s.moves = [] → step s = .next s

/-- R83: a pseudo-instruction written with its operand stores it in OPERAND and then runs the command, whatever command it
is and whatever moves follow. -/
def Obligations.PseudoInstructionRunsItsCommand : Prop :=
  ∀ (s : State) (i : Instr) (v : Word) (rest : List HostMove), s.moves = expand (.cmd i (some v)) ++ rest →
    ∃ t, step s = .next t ∧ t = { s with operand := v, moves := expand (.cmd i none) ++ rest } ∧
      step t = exec i { s with operand := v, moves := rest }

/-! ## Zigzag -/

/-- R102: the two maps are inverse over the whole of s64 and u64, and the bit-level forms are equal to them. -/
def Obligations.ZigzagIsABijectionWithItsBitForms : Prop :=
  (∀ x : Int, -2 ^ 63 ≤ x → x < 2 ^ 63 → zzDec (zzEnc x) = x) ∧
  (∀ u : Nat, u < 2 ^ 64 → zzEnc (zzDec u) = u) ∧
  (∀ u : Word, zzEncWord (toS64 u) = (u <<< 1) ^^^ (if toS64 u < 0 then 0xFFFFFFFFFFFFFFFF#64 else 0#64)) ∧
  (∀ u : Word, zzDecWord u = (u >>> 1) ^^^ (if u.getLsbD 0 then 0xFFFFFFFFFFFFFFFF#64 else 0#64))

/-- R103: ZZENC from every state. The value is written out from R100, with OPERAND read as two's complement. -/
def Obligations.ZzencStoresTheZigzagImage : Prop :=
  ∀ s : State, exec .zzenc s = .next
    { s with
      result := BitVec.ofInt 64 (if 0 ≤ s.operand.toInt then 2 * s.operand.toInt else -2 * s.operand.toInt - 1)
      err := 0#4
      nbytes := 0#4 }

/-- R104: ZZDEC from every state. The value is written out from R101. -/
def Obligations.ZzdecStoresTheSignedValue : Prop :=
  ∀ s : State, exec .zzdec s = .next
    { s with
      result := BitVec.ofInt 64
        (if s.operand.toNat % 2 = 0 then (s.operand.toNat : Int) / 2 else -(((s.operand.toNat : Int) + 1) / 2))
      err := 0#4
      nbytes := 0#4 }

/-- R104 with R102's second bit-level form: ZZDEC completes from every state, and RESULT is OPERAND shifted right by one with
every bit flipped where OPERAND is odd. -/
def Obligations.ZzdecCompletesWithTheBitForm : Prop :=
  ∀ s : State, ∃ t, exec .zzdec s = .next t ∧
    t = { s with
      result := (s.operand >>> 1) ^^^ (if s.operand.getLsbD 0 then 0xFFFFFFFFFFFFFFFF#64 else 0#64)
      err := 0#4
      nbytes := 0#4 }

/-- R105: small magnitudes of either sign have small images; the values of one byte are −64 to 63. -/
def Obligations.ZigzagKeepsSmallMagnitudesShort : Prop :=
  (∀ x : Int, zzEnc x = if 0 ≤ x then 2 * x.natAbs else 2 * x.natAbs - 1) ∧
  (∀ u : Word, (vlqPack (zzEncWord (toS64 u))).length = 1 ↔ -64 ≤ toS64 u ∧ toS64 u ≤ 63)

/-! ## The wire format and the encoder -/

/-- R110: the packing loop, one pass at a time, on the 64-bit magnitude, and its bound of 1 to 10 bytes. -/
def Obligations.PackTakesSevenBitsAPass : Prop :=
  ∀ x : Word,
    (x ≤ 0x7F#64 → vlqPack x = [x.setWidth 8 ||| 0x80#8]) ∧
    (0x7F#64 < x → vlqPack x = ((x &&& 0x7F#64).setWidth 8) :: vlqPack ((x >>> 7) - 1#64)) ∧
    1 ≤ (vlqPack x).length ∧ (vlqPack x).length ≤ 10

/-- R111, R73: the loop's bytes are the closed form: len(x) bytes, byte i the digit d_i of x − T_n, the flag on the last. -/
def Obligations.PackIsTheClosedForm : Prop :=
  ∀ (x : Word) (n : Nat), 1 ≤ n → tierStart n ≤ x.toNat → x.toNat < tierStart (n + 1) → vlqPack x = wireBytes x.toNat n

/-- R72: every local magnitude lies in exactly one tier, 1 to 10, which is the length of its encoding; it has exactly one
encoding, so no overlong form exists; and the length does not decrease. -/
def Obligations.EveryMagnitudeHasOneEncoding : Prop :=
  (∀ x : Word, ∃ n, (1 ≤ n ∧ n ≤ 10 ∧ tierStart n ≤ x.toNat ∧ x.toNat < tierStart (n + 1) ∧ (vlqPack x).length = n) ∧
    ∀ k, 1 ≤ k → tierStart k ≤ x.toNat → x.toNat < tierStart (k + 1) → k = n) ∧
  (∀ (x : Word) (bytes : List Byte), framed bytes = true → localMagnitude bytes = x.toNat → bytes = vlqPack x) ∧
  (∀ x y : Word, x ≤ y → (vlqPack x).length ≤ (vlqPack y).length)

/-- R74: on in-range framed sequences value and encoding are mutual inverses, at every baseline and whatever follows on the
source; an out-of-range sequence reports OVERFLOW. -/
def Obligations.FramedSequencesAndValuesAreInverse : Prop :=
  (∀ x : Word, framed (vlqPack x) = true ∧ localMagnitude (vlqPack x) = x.toNat) ∧
  (∀ (m : Word) (bytes rest : List Byte), framed bytes = true → localMagnitude bytes + m.toNat ≤ 2 ^ 64 - 1 →
    vlqUnpack m (bytes ++ rest) =
      { how := .ok (BitVec.ofNat 64 (localMagnitude bytes + m.toNat)), taken := bytes.length, rest := rest } ∧
    vlqPack (BitVec.ofNat 64 (localMagnitude bytes)) = bytes) ∧
  (∀ (m : Word) (bytes rest : List Byte), framed bytes = true → 2 ^ 64 - 1 < localMagnitude bytes + m.toNat →
    (vlqUnpack m (bytes ++ rest)).how = .overflow)

/-- R75: at baseline 0 the ten-byte in-range sequences are those whose digits are at most 2^64 − 1 − T_10, so their last byte
is 0x80, and a ten-byte framed sequence with another last byte is out of range at every baseline. -/
def Obligations.TenByteSequencesEndInEighty : Prop :=
  (∀ bytes : List Byte, framed bytes = true → bytes.length = 10 →
    ((localMagnitude bytes ≤ 2 ^ 64 - 1 ↔ digitSum bytes ≤ 0x7EFDFBF7EFDFBF7F) ∧
     (localMagnitude bytes ≤ 2 ^ 64 - 1 → bytes.getLast? = some 0x80#8) ∧
     (bytes.getLast? ≠ some 0x80#8 → ∀ m : Word, 2 ^ 64 - 1 < localMagnitude bytes + m.toNat))) ∧
  vlqPack 0xFFFFFFFFFFFFFFFF#64 = [0x7F#8, 0x7E#8, 0x7E#8, 0x7E#8, 0x7E#8, 0x7E#8, 0x7E#8, 0x7E#8, 0x7E#8, 0x80#8]

/-- R112: raising the baseline toward v never lengthens the encoding of v. -/
def Obligations.RaisingTheBaselineNeverLengthens : Prop :=
  ∀ v m k : Word, m ≤ k → k ≤ v → (vlqPack (v - k)).length ≤ (vlqPack (v - m)).length

/-- IC §8 (95_test_vectors.md W7), by R74: decoding what was encoded at the same baseline gives the value back, takes exactly
its bytes and leaves the rest. -/
def Obligations.DecodeOfEncodeGivesTheValueBack : Prop :=
  ∀ (v m : Word) (rest : List Byte), m ≤ v →
    vlqUnpack m (vlqPack (v - m) ++ rest) = { how := .ok v, taken := (vlqPack (v - m)).length, rest := rest }

/-- R113: UENC, in all its cases: MISUSE on a closed channel, PRECONDITION below the baseline, else the bytes of v − m. -/
def Obligations.UencAppendsTheEncoding : Prop :=
  ∀ s : State,
    (s.encOpen = false → exec .uenc s = .next { s with err := 4#4, nbytes := 0#4 }) ∧
    (s.encOpen = true → s.operand < s.encBase → exec .uenc s = .next { s with err := 3#4, nbytes := 0#4 }) ∧
    (s.encOpen = true → s.encBase ≤ s.operand → ∀ n, 1 ≤ n →
      tierStart n ≤ s.operand.toNat - s.encBase.toNat → s.operand.toNat - s.encBase.toNat < tierStart (n + 1) →
      exec .uenc s = .next
        { s with
          sinkLog := s.sinkLog ++ (wireBytes (s.operand.toNat - s.encBase.toNat) n).map SinkEvent.append
          err := 0#4
          nbytes := BitVec.ofNat 4 n })

/-- R150: SENC, in all its cases, with u the zigzag image of OPERAND read as two's complement. -/
def Obligations.SencAppendsTheZigzagEncoding : Prop :=
  ∀ (s : State) (u : Nat), (u : Int) = (if 0 ≤ s.operand.toInt then 2 * s.operand.toInt else -2 * s.operand.toInt - 1) →
    (s.encOpen = false → exec .senc s = .next { s with err := 4#4, nbytes := 0#4 }) ∧
    (s.encOpen = true → u < s.encBase.toNat → exec .senc s = .next { s with err := 3#4, nbytes := 0#4 }) ∧
    (s.encOpen = true → s.encBase.toNat ≤ u → ∀ n, 1 ≤ n →
      tierStart n ≤ u - s.encBase.toNat → u - s.encBase.toNat < tierStart (n + 1) →
      exec .senc s = .next
        { s with
          sinkLog := s.sinkLog ++ (wireBytes (u - s.encBase.toNat) n).map SinkEvent.append
          err := 0#4
          nbytes := BitVec.ofNat 4 n })

/-! ## The decoder -/

/-- R135: how many bytes one decode takes, and that it takes them from the head of the queue and leaves the others. -/
def Obligations.DecodeTakesAtMostElevenBytes : Prop :=
  ∀ (m : Word) (queue : List Byte),
    (vlqUnpack m queue).taken ≤ 11 ∧ (vlqUnpack m queue).taken ≤ queue.length ∧
    (vlqUnpack m queue).rest = queue.drop (vlqUnpack m queue).taken ∧
    (∀ v, (vlqUnpack m queue).how = .ok v → 1 ≤ (vlqUnpack m queue).taken ∧ (vlqUnpack m queue).taken ≤ 10)

/-- R130 to R132, R137: which queues decode, overflow or end too early. The three cases are all there are. -/
def Obligations.DecodeEndsByTheFirstDecidingByte : Prop :=
  ∀ (m : Word) (queue : List Byte),
    ((∃ v, (vlqUnpack m queue).how = .ok v) ↔
      ∃ bytes rest, queue = bytes ++ rest ∧ framed bytes = true ∧ localMagnitude bytes + m.toNat ≤ 2 ^ 64 - 1) ∧
    ((vlqUnpack m queue).how = .overflow ↔
      ∃ bytes b rest, queue = bytes ++ b :: rest ∧ noTerminal bytes = true ∧ localMagnitude bytes + m.toNat ≤ 2 ^ 64 - 1 ∧
        2 ^ 64 - 1 < localMagnitude (bytes ++ [b]) + m.toNat) ∧
    ((vlqUnpack m queue).how = .insufficientData ↔
      noTerminal queue = true ∧ localMagnitude queue + m.toNat ≤ 2 ^ 64 - 1)

/-- R134: UDEC, in all its cases: MISUSE on a closed channel, the value of an in-range framed sequence, OVERFLOW at the first
byte that takes the value past 2^64 − 1, INSUFFICIENT_DATA at the end of the source. -/
def Obligations.UdecStoresTheDecodedValue : Prop :=
  ∀ s : State,
    (s.decOpen = false → exec .udec s = .next { s with err := 4#4, nbytes := 0#4 }) ∧
    (s.decOpen = true →
      (∀ bytes rest, s.source = bytes ++ rest → framed bytes = true →
        localMagnitude bytes + s.decBase.toNat ≤ 2 ^ 64 - 1 →
        exec .udec s = .next
          { s with
            result := BitVec.ofNat 64 (localMagnitude bytes + s.decBase.toNat)
            source := rest
            err := 0#4
            nbytes := BitVec.ofNat 4 bytes.length }) ∧
      (∀ bytes b rest, s.source = bytes ++ b :: rest → noTerminal bytes = true →
        localMagnitude bytes + s.decBase.toNat ≤ 2 ^ 64 - 1 →
        2 ^ 64 - 1 < localMagnitude (bytes ++ [b]) + s.decBase.toNat →
        exec .udec s = .next { s with source := rest, err := 2#4, nbytes := BitVec.ofNat 4 (bytes.length + 1) }) ∧
      (noTerminal s.source = true → localMagnitude s.source + s.decBase.toNat ≤ 2 ^ 64 - 1 →
        exec .udec s = .next { s with source := [], err := 1#4, nbytes := BitVec.ofNat 4 s.source.length }))

/-- R151: SDEC stores the signed value that the decoded value u is the image of, written out from R101, and ends in UDEC's
errors unchanged. -/
def Obligations.SdecStoresTheSignedDecodedValue : Prop :=
  ∀ s : State,
    (s.decOpen = false → exec .sdec s = .next { s with err := 4#4, nbytes := 0#4 }) ∧
    (s.decOpen = true →
      (∀ bytes rest u, s.source = bytes ++ rest → framed bytes = true →
        u = localMagnitude bytes + s.decBase.toNat → u ≤ 2 ^ 64 - 1 →
        exec .sdec s = .next
          { s with
            result := BitVec.ofInt 64 (if u % 2 = 0 then (u : Int) / 2 else -(((u : Int) + 1) / 2))
            source := rest
            err := 0#4
            nbytes := BitVec.ofNat 4 bytes.length }) ∧
      (∀ bytes b rest, s.source = bytes ++ b :: rest → noTerminal bytes = true →
        localMagnitude bytes + s.decBase.toNat ≤ 2 ^ 64 - 1 →
        2 ^ 64 - 1 < localMagnitude (bytes ++ [b]) + s.decBase.toNat →
        exec .sdec s = .next { s with source := rest, err := 2#4, nbytes := BitVec.ofNat 4 (bytes.length + 1) }) ∧
      (noTerminal s.source = true → localMagnitude s.source + s.decBase.toNat ≤ 2 ^ 64 - 1 →
        exec .sdec s = .next { s with source := [], err := 1#4, nbytes := BitVec.ofNat 4 s.source.length }))

/-! ## The signed commands as host sequences -/

/-- R152, first half: SENC leaves the SinkLog and STATUS of ZZENC then UENC of its RESULT, and nothing differs but RESULT and
OPERAND. -/
def Obligations.SencIsZzencThenUenc : Prop :=
  ∀ (s : State) (x : Word), ∃ z u v,
    exec .zzenc { s with operand := x } = .next z ∧
    exec .uenc { z with operand := z.result } = .next u ∧
    exec .senc { s with operand := x } = .next v ∧
    u.sinkLog = v.sinkLog ∧ statusWord u = statusWord v ∧
    u = { v with operand := z.result, result := z.result }

/-- R152, second half, for a decode that succeeds: SDEC leaves the RESULT and the streams of UDEC then ZZDEC of its RESULT.
After the sequence NBYTES is ZZDEC's 0 (R104), and on a decode error the host has no RESULT to pass on (log 14). -/
def Obligations.SdecIsUdecThenZzdec : Prop :=
  ∀ s : State, ∃ u z v,
    exec .udec s = .next u ∧ exec .zzdec { u with operand := u.result } = .next z ∧ exec .sdec s = .next v ∧
    (u.err = 0#4 ↔ v.err = 0#4) ∧
    (v.err = 0#4 → z = { v with operand := u.result, nbytes := 0#4 }) ∧
    (v.err ≠ 0#4 → u = v)

/-! ## Channel control -/

/-- R160: NOP clears the outcome fields and nothing else, from every state. -/
def Obligations.NopClearsTheOutcome : Prop :=
  ∀ s : State, exec .nop s = .next { s with err := 0#4, nbytes := 0#4 }

/-- R161: ENC_OPEN from every state, open or closed. -/
def Obligations.EncOpenSetsTheBaseline : Prop :=
  ∀ s : State, exec .encOpen s = .next { s with encBase := s.operand, encOpen := true, err := 0#4, nbytes := 0#4 }

/-- R162: ENC_CLOSE adds one Close and closes the channel; on a closed channel it is MISUSE and adds none. -/
def Obligations.EncCloseClosesTheSinkOnce : Prop :=
  ∀ s : State,
    (s.encOpen = true → exec .encClose s = .next
      { s with sinkLog := s.sinkLog ++ [SinkEvent.close], encOpen := false, err := 0#4, nbytes := 0#4 }) ∧
    (s.encOpen = false → exec .encClose s = .next { s with err := 4#4, nbytes := 0#4 })

/-- R163: DEC_OPEN from every state, open or closed; no stream changes. -/
def Obligations.DecOpenSetsTheBaseline : Prop :=
  ∀ s : State, exec .decOpen s = .next { s with decBase := s.operand, decOpen := true, err := 0#4, nbytes := 0#4 }

/-- R164: DEC_CLOSE closes the channel and leaves the source; on a closed channel it is MISUSE. -/
def Obligations.DecCloseLeavesTheSource : Prop :=
  ∀ s : State,
    (s.decOpen = true → exec .decClose s = .next { s with decOpen := false, err := 0#4, nbytes := 0#4 }) ∧
    (s.decOpen = false → exec .decClose s = .next { s with err := 4#4, nbytes := 0#4 })

/-! ## Errors and whole-machine rules -/

/-- R183: which commands raise MISUSE and when, that it comes before every other error of a legal command, and which never
raise it. -/
def Obligations.MisuseExactlyOnAClosedChannel : Prop :=
  ∀ (i : Instr) (s : State), ∃ t, exec i s = .next t ∧
    (t.err = 4#4 ↔
      ((i = .uenc ∨ i = .senc ∨ i = .encClose) ∧ s.encOpen = false) ∨
      ((i = .udec ∨ i = .sdec ∨ i = .decClose) ∧ s.decOpen = false)) ∧
    (t.err = 4#4 → t = { s with err := 4#4, nbytes := 0#4 })

/-- R187: an error keeps everything but ERR, NBYTES and the source bytes taken, which stay taken. -/
def Obligations.ErrorsKeepAllButTheReport : Prop :=
  ∀ (i : Instr) (s t : State), exec i s = .next t → t.err ≠ 0#4 →
    t = { s with
      err := t.err
      nbytes := t.nbytes
      source := if i = .udec ∨ i = .sdec then s.source.drop t.nbytes.toNat else s.source }

/-- R180, R181: every command ends in one outcome from every state, success or an error of the table, with a byte count the
table allows beside it. -/
def Obligations.EveryCommandEndsInOneLegalOutcome : Prop :=
  ∀ (i : Instr) (s : State), ∃ t, exec i s = .next t ∧ t.OutcomeLegal ∧
    (t.err = 1#4 ∨ t.err = 2#4 → i = .udec ∨ i = .sdec) ∧ (t.err = 3#4 → i = .uenc ∨ i = .senc) ∧ t.err ≠ 5#4

/-- R30: bits 63:10 of STATUS are 0 in every state, and no command, legal or illegal, writes ERR 6 to 15 or NBYTES 12 to 15. -/
def Obligations.ReservedStatusValuesAreNeverWritten : Prop :=
  (∀ s : State, statusWord s >>> 10 = 0#64) ∧
  (∀ (c : Word) (s t : State), runCommand c s = .next t → t.err.toNat ≤ 5 ∧ t.nbytes.toNat ≤ 11)

/-- R25: where the fields stand in STATUS as the host reads it. -/
def Obligations.StatusFieldsStandInTheirBits : Prop :=
  ∀ s : State,
    (statusWord s).extractLsb' 0 4 = s.err ∧ (statusWord s).extractLsb' 4 4 = s.nbytes ∧
    (statusWord s).getLsbD 8 = s.encOpen ∧ (statusWord s).getLsbD 9 = s.decOpen ∧
    (statusWord s).extractLsb' 10 54 = 0#54

/-- R22, R25, R32, R33, R200's registers: which command may change OPERAND, the open bits and the baselines; and no command
touches what is the host's own. -/
def Obligations.OnlyChannelCommandsChangeTheChannels : Prop :=
  ∀ (i : Instr) (s t : State), exec i s = .next t →
    t.operand = s.operand ∧
    (i ≠ .encOpen → t.encBase = s.encBase) ∧ (i ≠ .decOpen → t.decBase = s.decBase) ∧
    (i ≠ .encOpen → i ≠ .encClose → t.encOpen = s.encOpen) ∧ (i ≠ .decOpen → i ≠ .decClose → t.decOpen = s.decOpen) ∧
    t.moves = s.moves ∧ t.seen = s.seen ∧ t.freeCount = s.freeCount

/-- R204, R23: only a successful ZZENC, ZZDEC, UDEC or SDEC writes RESULT. -/
def Obligations.ResultIsStaleUnlessAValueCommandSucceeds : Prop :=
  ∀ (i : Instr) (s t : State), exec i s = .next t →
    ¬((i = .zzenc ∨ i = .zzdec ∨ i = .udec ∨ i = .sdec) ∧ t.err = 0#4) → t.result = s.result

/-- R27, R36, R53, R208: the streams. The sink only grows, by at most 10 events, by UENC, SENC and ENC_CLOSE without error;
the source only loses bytes at its head, at most 11, by UDEC and SDEC; NBYTES counts the bytes moved. -/
def Obligations.StreamsMoveOnlyTheBytesCounted : Prop :=
  ∀ (i : Instr) (s t : State), exec i s = .next t →
    (∃ events, t.sinkLog = s.sinkLog ++ events ∧ events.length ≤ 10 ∧
      (events ≠ [] → (i = .uenc ∨ i = .senc ∨ i = .encClose) ∧ t.err = 0#4) ∧
      (i = .uenc ∨ i = .senc → events.length = t.nbytes.toNat)) ∧
    (∃ bytes, s.source = bytes ++ t.source ∧ bytes.length ≤ 11 ∧ (bytes ≠ [] → i = .udec ∨ i = .sdec) ∧
      (i = .udec ∨ i = .sdec → bytes.length = t.nbytes.toNat)) ∧
    (¬(i = .uenc ∨ i = .senc ∨ i = .udec ∨ i = .sdec) → t.nbytes = 0#4)

/-! ## The register window and the host's moves -/

/-- R51, R21, R31, R34: every host access that reaches the window. A 64-bit write to CMD starts the command; of the other
writes only a 64-bit one to OPERAND stores anything. A read returns the register, or 0 where R51 says so; a read of STATUS is
stated for the values some command produces. -/
def Obligations.WindowAccessesFollowTheTable : Prop :=
  ∀ (s : State) (off width : Nat) (rest : List HostMove), off < 0x40 →
    (∀ data, s.moves = .store off width data :: rest → off = 0 → width = 8 →
      step s = runCommand data { s with moves := rest }) ∧
    (∀ data, s.moves = .store off width data :: rest → ¬(off = 0 ∧ width = 8) →
      step s = .next
        { s with
          operand := if off = 0x08 ∧ width = 8 then data else s.operand
          moves := rest }) ∧
    (s.moves = .load off width :: rest → (off = 0x18 → width = 8 → s.StatusLegal) →
      step s = .next
        { s with
          moves := rest
          seen := .loaded off
            (if width = 8 then
              (if off = 0x08 then s.operand else if off = 0x10 then s.result
               else if off = 0x18 then statusWord s else if off = 0x20 then s.encBase
               else if off = 0x28 then s.decBase else 0#64)
             else 0#64) :: s.seen })

/-- 93 U2 (log 6): a read of STATUS that meets a value never produced is refused under its own name. -/
def Obligations.ReadOfReservedStatusIsRefused : Prop :=
  ∀ (s : State) (rest : List HostMove), s.moves = .load 0x18 8 :: rest → ¬s.StatusLegal →
    step s = .refused .reservedStatus

/-- R50 (log 5): an access at offset 0x40 or more is no access to the window and stops under its own name. -/
def Obligations.AccessOutsideTheWindowFaults : Prop :=
  ∀ (s : State) (off width : Nat) (rest : List HostMove), 0x40 ≤ off →
    (∀ data, s.moves = .store off width data :: rest → step s = .fault .outsideWindow) ∧
    (s.moves = .load off width :: rest → step s = .fault .outsideWindow)

/-- R63, R35, R36: the host's moves on the streams add bytes at the source's tail and read SinkLog, and change nothing else
of the block. -/
def Obligations.HostStreamMovesAddAndRead : Prop :=
  ∀ (s : State) (rest : List HostMove),
    (∀ bytes, s.moves = .feed bytes :: rest → step s = .next { s with moves := rest, source := s.source ++ bytes }) ∧
    (s.moves = .readSink :: rest → step s = .next { s with moves := rest, seen := .sinkLog s.sinkLog :: s.seen })

/-! ## Reset -/

/-- R200: a reset from every state gives every register its reset value and leaves the streams; State.reset holds those
register values. That the host's pending moves and its record of reads stay as they are is the model's choice (log 18). -/
def Obligations.ResetGivesTheRegistersTheirValues : Prop :=
  (∀ (s : State) (rest : List HostMove), s.moves = .reset :: rest →
    ∃ t, step s = .next t ∧ t.operand = 0#64 ∧ t.result = 0#64 ∧ t.encBase = 0#64 ∧ t.decBase = 0#64 ∧
      statusWord t = 0x0000000000000300#64 ∧ t.encOpen = true ∧ t.decOpen = true ∧ t.err = 0#4 ∧ t.nbytes = 0#4 ∧
      t.source = s.source ∧ t.sinkLog = s.sinkLog ∧ t.moves = rest ∧ t.seen = s.seen) ∧
  (State.reset.operand = 0#64 ∧ State.reset.result = 0#64 ∧ State.reset.encBase = 0#64 ∧ State.reset.decBase = 0#64 ∧
    statusWord State.reset = 0x0000000000000300#64)

/-- 93 U1 (log 7), for every value of the free cuts: a reset during a command leaves the registers at their reset values, the
sink with a prefix of the command's events and the source without a prefix of the bytes the command would have read. -/
def Obligations.ResetDuringACommandLeavesPrefixes : Prop :=
  ∀ (s : State) (c : Word) (rest : List HostMove), s.moves = .resetDuring c :: rest →
    ∃ t u events bytes kept lost,
      runCommand c { s with moves := rest } = .next t ∧ step s = .next u ∧
      t.sinkLog = s.sinkLog ++ events ∧ s.source = bytes ++ t.source ∧
      u.sinkLog = s.sinkLog ++ events.take kept ∧ u.source = bytes.drop lost ++ t.source ∧
      statusWord u = 0x0000000000000300#64 ∧ u.operand = 0#64 ∧ u.result = 0#64 ∧ u.encBase = 0#64 ∧ u.decBase = 0#64 ∧
      u.moves = rest

/-! ## Invariants -/

/-- R27, R30, R181 with R50: from every state with a legal outcome whose pending accesses are in the window, a step gives
such a state. -/
def Obligations.EveryStepKeepsAGoodState : Prop :=
  ∀ s t : State, s.Good → step s = .next t → t.Good

/-- R180, R189: from every such state the next step gives a next state, so no run from one ever stops. -/
def Obligations.GoodStatesNeverStop : Prop :=
  ∀ s : State, s.Good → ∀ n, ∃ t, runSteps n s = .next t ∧ t.Good

/-- The invariant holds right after reset. -/
def Obligations.ResetStateIsGood : Prop := State.reset.Good

/-! ## Bulk loops -/

/-- R116: BULK_ENC appends the encodings in order with nothing between them, or stops at the first value below the baseline
or on a closed channel, with the earlier bytes kept and that value's error in STATUS. The model's choice (log 17): the loop as
moves, so the numbers of steps; and ERR left open for no values, where no command runs although R116 speaks of ERR = 0. -/
def Obligations.BulkEncAppendsInOrderAndStopsOnError : Prop :=
  ∀ (s : State) (values : List Word) (rest : List HostMove), s.moves = .bulkEnc values :: rest →
    (s.encOpen = true → (∀ v ∈ values, s.encBase ≤ v) →
      ∃ t, runSteps (4 * values.length + 1) s = .next t ∧ t.moves = rest ∧
        t.sinkLog = s.sinkLog ++ values.flatMap (fun v => (vlqPack (v - s.encBase)).map SinkEvent.append) ∧
        (values ≠ [] → t.err = 0#4)) ∧
    (s.encOpen = true → ∀ done v more, values = done ++ v :: more → (∀ w ∈ done, s.encBase ≤ w) → v < s.encBase →
      ∃ t, runSteps (4 * done.length + 4) s = .next t ∧ t.moves = rest ∧
        t.sinkLog = s.sinkLog ++ done.flatMap (fun w => (vlqPack (w - s.encBase)).map SinkEvent.append) ∧
        t.err = 3#4 ∧ t.nbytes = 0#4) ∧
    (s.encOpen = false → values ≠ [] →
      ∃ t, runSteps 4 s = .next t ∧ t.moves = rest ∧ t.sinkLog = s.sinkLog ∧ t.err = 4#4 ∧ t.nbytes = 0#4)

/-- R136, IC §8 (95_test_vectors.md W13): BULK_DEC of encodings at the same baseline gives their values in order and consumes
them; it ends cleanly when the source ends at a value boundary and fails on a truncated last value. The model's choice: the
loop as moves, so the number of steps, and the record of its end (log 17), which stands in State.seen (log 2). The ends by
OVERFLOW and MISUSE are BulkDecFailsOnOverflowAndMisuse. -/
def Obligations.BulkDecGivesTheEncodedValuesBack : Prop :=
  ∀ (s : State) (values : List Word) (tail : List Byte) (rest : List HostMove), s.moves = .bulkDec [] :: rest →
    s.decOpen = true → (∀ v ∈ values, s.decBase ≤ v) →
    s.source = values.flatMap (fun v => vlqPack (v - s.decBase)) ++ tail →
    noTerminal tail = true → localMagnitude tail + s.decBase.toNat ≤ 2 ^ 64 - 1 →
    ∃ t, runSteps (3 * values.length + 3) s = .next t ∧ t.moves = rest ∧ t.source = [] ∧
      t.seen.head? = some (.bulkDecoded values (if tail = [] then .clean else .failed)) ∧
      t.err = 1#4 ∧ t.nbytes.toNat = tail.length

/-- R136: BULK_DEC fails at the first UDEC with an error other than INSUFFICIENT_DATA: at an OVERFLOW it yields the values
before it and leaves the bytes after the one that overflowed, and on a closed channel it yields none and takes no byte. The
model's choice: the loop as moves, so the numbers of steps, and the record of its end (log 17), which stands in State.seen
(log 2). -/
def Obligations.BulkDecFailsOnOverflowAndMisuse : Prop :=
  ∀ (s : State) (values : List Word) (rest : List HostMove), s.moves = .bulkDec [] :: rest →
    (s.decOpen = true → (∀ v ∈ values, s.decBase ≤ v) → ∀ bytes b left,
      s.source = values.flatMap (fun v => vlqPack (v - s.decBase)) ++ (bytes ++ b :: left) →
      noTerminal bytes = true → localMagnitude bytes + s.decBase.toNat ≤ 2 ^ 64 - 1 →
      2 ^ 64 - 1 < localMagnitude (bytes ++ [b]) + s.decBase.toNat →
      ∃ t, runSteps (3 * values.length + 3) s = .next t ∧ t.moves = rest ∧ t.source = left ∧
        t.seen.head? = some (.bulkDecoded values .failed) ∧ t.err = 2#4 ∧ t.nbytes.toNat = bytes.length + 1) ∧
    (s.decOpen = false →
      ∃ t, runSteps 3 s = .next t ∧ t.moves = rest ∧ t.source = s.source ∧ t.result = s.result ∧
        t.seen.head? = some (.bulkDecoded [] .failed) ∧ t.err = 4#4 ∧ t.nbytes = 0#4)
end

