-- ==== Sys2Proof/Laws/State.lean ====
section
/-! SUPPORT. What each update of the state does to each field: one lemma per field per update, true by rfl. -/

namespace Sys2Proof.Machine

/-! ### succeed -/

@[simp] theorem succeed_operand (n : Nat) (s : State) : (succeed n s).operand = s.operand := rfl
@[simp] theorem succeed_result (n : Nat) (s : State) : (succeed n s).result = s.result := rfl
@[simp] theorem succeed_err (n : Nat) (s : State) : (succeed n s).err = 0#4 := rfl
@[simp] theorem succeed_nbytes (n : Nat) (s : State) : (succeed n s).nbytes = BitVec.ofNat 4 n := rfl
@[simp] theorem succeed_encOpen (n : Nat) (s : State) : (succeed n s).encOpen = s.encOpen := rfl
@[simp] theorem succeed_decOpen (n : Nat) (s : State) : (succeed n s).decOpen = s.decOpen := rfl
@[simp] theorem succeed_encBase (n : Nat) (s : State) : (succeed n s).encBase = s.encBase := rfl
@[simp] theorem succeed_decBase (n : Nat) (s : State) : (succeed n s).decBase = s.decBase := rfl
@[simp] theorem succeed_source (n : Nat) (s : State) : (succeed n s).source = s.source := rfl
@[simp] theorem succeed_sinkLog (n : Nat) (s : State) : (succeed n s).sinkLog = s.sinkLog := rfl
@[simp] theorem succeed_moves (n : Nat) (s : State) : (succeed n s).moves = s.moves := rfl
@[simp] theorem succeed_seen (n : Nat) (s : State) : (succeed n s).seen = s.seen := rfl
@[simp] theorem succeed_freeCount (n : Nat) (s : State) : (succeed n s).freeCount = s.freeCount := rfl

/-! ### raiseError -/

@[simp] theorem raiseError_operand (e : Err) (n : Nat) (s : State) : (raiseError e n s).operand = s.operand := rfl
@[simp] theorem raiseError_result (e : Err) (n : Nat) (s : State) : (raiseError e n s).result = s.result := rfl
@[simp] theorem raiseError_err (e : Err) (n : Nat) (s : State) : (raiseError e n s).err = e.code := rfl
@[simp] theorem raiseError_nbytes (e : Err) (n : Nat) (s : State) : (raiseError e n s).nbytes = BitVec.ofNat 4 n := rfl
@[simp] theorem raiseError_encOpen (e : Err) (n : Nat) (s : State) : (raiseError e n s).encOpen = s.encOpen := rfl
@[simp] theorem raiseError_decOpen (e : Err) (n : Nat) (s : State) : (raiseError e n s).decOpen = s.decOpen := rfl
@[simp] theorem raiseError_encBase (e : Err) (n : Nat) (s : State) : (raiseError e n s).encBase = s.encBase := rfl
@[simp] theorem raiseError_decBase (e : Err) (n : Nat) (s : State) : (raiseError e n s).decBase = s.decBase := rfl
@[simp] theorem raiseError_source (e : Err) (n : Nat) (s : State) : (raiseError e n s).source = s.source := rfl
@[simp] theorem raiseError_sinkLog (e : Err) (n : Nat) (s : State) : (raiseError e n s).sinkLog = s.sinkLog := rfl
@[simp] theorem raiseError_moves (e : Err) (n : Nat) (s : State) : (raiseError e n s).moves = s.moves := rfl
@[simp] theorem raiseError_seen (e : Err) (n : Nat) (s : State) : (raiseError e n s).seen = s.seen := rfl
@[simp] theorem raiseError_freeCount (e : Err) (n : Nat) (s : State) : (raiseError e n s).freeCount = s.freeCount := rfl

/-! ### sinkAppendAll -/

@[simp] theorem sinkAppendAll_operand (bytes : List Byte) (s : State) : (sinkAppendAll bytes s).operand = s.operand := rfl
@[simp] theorem sinkAppendAll_result (bytes : List Byte) (s : State) : (sinkAppendAll bytes s).result = s.result := rfl
@[simp] theorem sinkAppendAll_err (bytes : List Byte) (s : State) : (sinkAppendAll bytes s).err = s.err := rfl
@[simp] theorem sinkAppendAll_nbytes (bytes : List Byte) (s : State) : (sinkAppendAll bytes s).nbytes = s.nbytes := rfl
@[simp] theorem sinkAppendAll_encOpen (bytes : List Byte) (s : State) : (sinkAppendAll bytes s).encOpen = s.encOpen := rfl
@[simp] theorem sinkAppendAll_decOpen (bytes : List Byte) (s : State) : (sinkAppendAll bytes s).decOpen = s.decOpen := rfl
@[simp] theorem sinkAppendAll_encBase (bytes : List Byte) (s : State) : (sinkAppendAll bytes s).encBase = s.encBase := rfl
@[simp] theorem sinkAppendAll_decBase (bytes : List Byte) (s : State) : (sinkAppendAll bytes s).decBase = s.decBase := rfl
@[simp] theorem sinkAppendAll_source (bytes : List Byte) (s : State) : (sinkAppendAll bytes s).source = s.source := rfl
@[simp] theorem sinkAppendAll_sinkLog (bytes : List Byte) (s : State) : (sinkAppendAll bytes s).sinkLog = s.sinkLog ++ bytes.map SinkEvent.append := rfl
@[simp] theorem sinkAppendAll_moves (bytes : List Byte) (s : State) : (sinkAppendAll bytes s).moves = s.moves := rfl
@[simp] theorem sinkAppendAll_seen (bytes : List Byte) (s : State) : (sinkAppendAll bytes s).seen = s.seen := rfl
@[simp] theorem sinkAppendAll_freeCount (bytes : List Byte) (s : State) : (sinkAppendAll bytes s).freeCount = s.freeCount := rfl

/-! ### sinkClose -/

@[simp] theorem sinkClose_operand (s : State) : (sinkClose s).operand = s.operand := rfl
@[simp] theorem sinkClose_result (s : State) : (sinkClose s).result = s.result := rfl
@[simp] theorem sinkClose_err (s : State) : (sinkClose s).err = s.err := rfl
@[simp] theorem sinkClose_nbytes (s : State) : (sinkClose s).nbytes = s.nbytes := rfl
@[simp] theorem sinkClose_encOpen (s : State) : (sinkClose s).encOpen = s.encOpen := rfl
@[simp] theorem sinkClose_decOpen (s : State) : (sinkClose s).decOpen = s.decOpen := rfl
@[simp] theorem sinkClose_encBase (s : State) : (sinkClose s).encBase = s.encBase := rfl
@[simp] theorem sinkClose_decBase (s : State) : (sinkClose s).decBase = s.decBase := rfl
@[simp] theorem sinkClose_source (s : State) : (sinkClose s).source = s.source := rfl
@[simp] theorem sinkClose_sinkLog (s : State) : (sinkClose s).sinkLog = s.sinkLog ++ [SinkEvent.close] := rfl
@[simp] theorem sinkClose_moves (s : State) : (sinkClose s).moves = s.moves := rfl
@[simp] theorem sinkClose_seen (s : State) : (sinkClose s).seen = s.seen := rfl
@[simp] theorem sinkClose_freeCount (s : State) : (sinkClose s).freeCount = s.freeCount := rfl

/-! ### feedSource -/

@[simp] theorem feedSource_operand (bytes : List Byte) (s : State) : (feedSource bytes s).operand = s.operand := rfl
@[simp] theorem feedSource_result (bytes : List Byte) (s : State) : (feedSource bytes s).result = s.result := rfl
@[simp] theorem feedSource_err (bytes : List Byte) (s : State) : (feedSource bytes s).err = s.err := rfl
@[simp] theorem feedSource_nbytes (bytes : List Byte) (s : State) : (feedSource bytes s).nbytes = s.nbytes := rfl
@[simp] theorem feedSource_encOpen (bytes : List Byte) (s : State) : (feedSource bytes s).encOpen = s.encOpen := rfl
@[simp] theorem feedSource_decOpen (bytes : List Byte) (s : State) : (feedSource bytes s).decOpen = s.decOpen := rfl
@[simp] theorem feedSource_encBase (bytes : List Byte) (s : State) : (feedSource bytes s).encBase = s.encBase := rfl
@[simp] theorem feedSource_decBase (bytes : List Byte) (s : State) : (feedSource bytes s).decBase = s.decBase := rfl
@[simp] theorem feedSource_source (bytes : List Byte) (s : State) : (feedSource bytes s).source = s.source ++ bytes := rfl
@[simp] theorem feedSource_sinkLog (bytes : List Byte) (s : State) : (feedSource bytes s).sinkLog = s.sinkLog := rfl
@[simp] theorem feedSource_moves (bytes : List Byte) (s : State) : (feedSource bytes s).moves = s.moves := rfl
@[simp] theorem feedSource_seen (bytes : List Byte) (s : State) : (feedSource bytes s).seen = s.seen := rfl
@[simp] theorem feedSource_freeCount (bytes : List Byte) (s : State) : (feedSource bytes s).freeCount = s.freeCount := rfl

/-! ### resetRegisters -/

@[simp] theorem resetRegisters_operand (s : State) : (resetRegisters s).operand = 0#64 := rfl
@[simp] theorem resetRegisters_result (s : State) : (resetRegisters s).result = 0#64 := rfl
@[simp] theorem resetRegisters_err (s : State) : (resetRegisters s).err = 0#4 := rfl
@[simp] theorem resetRegisters_nbytes (s : State) : (resetRegisters s).nbytes = 0#4 := rfl
@[simp] theorem resetRegisters_encOpen (s : State) : (resetRegisters s).encOpen = true := rfl
@[simp] theorem resetRegisters_decOpen (s : State) : (resetRegisters s).decOpen = true := rfl
@[simp] theorem resetRegisters_encBase (s : State) : (resetRegisters s).encBase = 0#64 := rfl
@[simp] theorem resetRegisters_decBase (s : State) : (resetRegisters s).decBase = 0#64 := rfl
@[simp] theorem resetRegisters_source (s : State) : (resetRegisters s).source = s.source := rfl
@[simp] theorem resetRegisters_sinkLog (s : State) : (resetRegisters s).sinkLog = s.sinkLog := rfl
@[simp] theorem resetRegisters_moves (s : State) : (resetRegisters s).moves = s.moves := rfl
@[simp] theorem resetRegisters_seen (s : State) : (resetRegisters s).seen = s.seen := rfl
@[simp] theorem resetRegisters_freeCount (s : State) : (resetRegisters s).freeCount = s.freeCount := rfl

/-! ### recordLoad -/

@[simp] theorem recordLoad_operand (off : Nat) (value : Word) (s : State) : (recordLoad off value s).operand = s.operand := rfl
@[simp] theorem recordLoad_result (off : Nat) (value : Word) (s : State) : (recordLoad off value s).result = s.result := rfl
@[simp] theorem recordLoad_err (off : Nat) (value : Word) (s : State) : (recordLoad off value s).err = s.err := rfl
@[simp] theorem recordLoad_nbytes (off : Nat) (value : Word) (s : State) : (recordLoad off value s).nbytes = s.nbytes := rfl
@[simp] theorem recordLoad_encOpen (off : Nat) (value : Word) (s : State) : (recordLoad off value s).encOpen = s.encOpen := rfl
@[simp] theorem recordLoad_decOpen (off : Nat) (value : Word) (s : State) : (recordLoad off value s).decOpen = s.decOpen := rfl
@[simp] theorem recordLoad_encBase (off : Nat) (value : Word) (s : State) : (recordLoad off value s).encBase = s.encBase := rfl
@[simp] theorem recordLoad_decBase (off : Nat) (value : Word) (s : State) : (recordLoad off value s).decBase = s.decBase := rfl
@[simp] theorem recordLoad_source (off : Nat) (value : Word) (s : State) : (recordLoad off value s).source = s.source := rfl
@[simp] theorem recordLoad_sinkLog (off : Nat) (value : Word) (s : State) : (recordLoad off value s).sinkLog = s.sinkLog := rfl
@[simp] theorem recordLoad_moves (off : Nat) (value : Word) (s : State) : (recordLoad off value s).moves = s.moves := rfl
@[simp] theorem recordLoad_seen (off : Nat) (value : Word) (s : State) : (recordLoad off value s).seen = .loaded off value :: s.seen := rfl
@[simp] theorem recordLoad_freeCount (off : Nat) (value : Word) (s : State) : (recordLoad off value s).freeCount = s.freeCount := rfl

/-! ### prependMoves -/

@[simp] theorem prependMoves_operand (ms : List HostMove) (s : State) : (prependMoves ms s).operand = s.operand := rfl
@[simp] theorem prependMoves_result (ms : List HostMove) (s : State) : (prependMoves ms s).result = s.result := rfl
@[simp] theorem prependMoves_err (ms : List HostMove) (s : State) : (prependMoves ms s).err = s.err := rfl
@[simp] theorem prependMoves_nbytes (ms : List HostMove) (s : State) : (prependMoves ms s).nbytes = s.nbytes := rfl
@[simp] theorem prependMoves_encOpen (ms : List HostMove) (s : State) : (prependMoves ms s).encOpen = s.encOpen := rfl
@[simp] theorem prependMoves_decOpen (ms : List HostMove) (s : State) : (prependMoves ms s).decOpen = s.decOpen := rfl
@[simp] theorem prependMoves_encBase (ms : List HostMove) (s : State) : (prependMoves ms s).encBase = s.encBase := rfl
@[simp] theorem prependMoves_decBase (ms : List HostMove) (s : State) : (prependMoves ms s).decBase = s.decBase := rfl
@[simp] theorem prependMoves_source (ms : List HostMove) (s : State) : (prependMoves ms s).source = s.source := rfl
@[simp] theorem prependMoves_sinkLog (ms : List HostMove) (s : State) : (prependMoves ms s).sinkLog = s.sinkLog := rfl
@[simp] theorem prependMoves_moves (ms : List HostMove) (s : State) : (prependMoves ms s).moves = ms ++ s.moves := rfl
@[simp] theorem prependMoves_seen (ms : List HostMove) (s : State) : (prependMoves ms s).seen = s.seen := rfl
@[simp] theorem prependMoves_freeCount (ms : List HostMove) (s : State) : (prependMoves ms s).freeCount = s.freeCount := rfl

/-! ### popMove -/

@[simp] theorem popMove_operand (s : State) : (popMove s).operand = s.operand := rfl
@[simp] theorem popMove_result (s : State) : (popMove s).result = s.result := rfl
@[simp] theorem popMove_err (s : State) : (popMove s).err = s.err := rfl
@[simp] theorem popMove_nbytes (s : State) : (popMove s).nbytes = s.nbytes := rfl
@[simp] theorem popMove_encOpen (s : State) : (popMove s).encOpen = s.encOpen := rfl
@[simp] theorem popMove_decOpen (s : State) : (popMove s).decOpen = s.decOpen := rfl
@[simp] theorem popMove_encBase (s : State) : (popMove s).encBase = s.encBase := rfl
@[simp] theorem popMove_decBase (s : State) : (popMove s).decBase = s.decBase := rfl
@[simp] theorem popMove_source (s : State) : (popMove s).source = s.source := rfl
@[simp] theorem popMove_sinkLog (s : State) : (popMove s).sinkLog = s.sinkLog := rfl
@[simp] theorem popMove_moves (s : State) : (popMove s).moves = s.moves.tail := rfl
@[simp] theorem popMove_seen (s : State) : (popMove s).seen = s.seen := rfl
@[simp] theorem popMove_freeCount (s : State) : (popMove s).freeCount = s.freeCount := rfl

end Sys2Proof.Machine
end

