-- ==== Sys2Proof/Laws/Ops.lean ====
section
/-! SUPPORT. For each shared operation one lemma that says what it can do, so that later proofs cite it and do not unfold
the operation. -/

namespace Sys2Proof.Machine

/-! ### Decoding -/

/-- The opcode map read backwards: one opcode per command. -/
theorem instrOfOpcode_eq_some_iff (o : BitVec 8) (i : Instr) : instrOfOpcode o = some i ↔ o = opcodeOf i := by
  constructor
  · intro h
    unfold instrOfOpcode at h
    split at h <;> first | (cases h; rfl) | cases h
  · rintro rfl
    cases i <;> rfl

theorem decode_ok_iff_fields (c : Word) (i : Instr) : decode c = .ok i ↔ rsv c = 0#56 ∧ opc c = opcodeOf i := by
  rw [← instrOfOpcode_eq_some_iff]
  unfold decode
  by_cases h : rsv c = 0#56
  · simp only [h, if_true, true_and]
    cases instrOfOpcode (opc c) <;> simp
  · simp [h]

/-! ### Commands -/

/-- Everything the encoder's body can do: three ends, none of which touches anything but the sink and the outcome. -/
theorem encodeValue_cases (v : Word) (s : State) :
    (s.encOpen = false ∧ encodeValue v s = raiseError .misuse 0 s) ∨
    (s.encOpen = true ∧ v.toNat < s.encBase.toNat ∧ encodeValue v s = raiseError .precondition 0 s) ∨
    (s.encOpen = true ∧ s.encBase.toNat ≤ v.toNat ∧
      encodeValue v s =
        succeed (vlqPack (v - s.encBase)).length (sinkAppendAll (vlqPack (v - s.encBase)) s)) := by
  unfold encodeValue
  by_cases h : s.encOpen = true
  · by_cases hv : v.toNat < s.encBase.toNat
    · exact .inr (.inl ⟨h, hv, by rw [if_pos h, if_pos hv]⟩)
    · exact .inr (.inr ⟨h, Nat.le_of_not_lt hv, by rw [if_pos h, if_neg hv]⟩)
  · exact .inl ⟨by simpa using h, by rw [if_neg h]⟩

/-- Everything the decoder's body can do. -/
theorem decodeValue_cases (post : Word → Word) (s : State) :
    (s.decOpen = false ∧ decodeValue post s = raiseError .misuse 0 s) ∨
    (s.decOpen = true ∧ (vlqUnpack s.decBase s.source).how = .insufficientData ∧
      decodeValue post s = raiseError .insufficientData (vlqUnpack s.decBase s.source).taken
        { s with source := (vlqUnpack s.decBase s.source).rest }) ∨
    (s.decOpen = true ∧ (vlqUnpack s.decBase s.source).how = .overflow ∧
      decodeValue post s = raiseError .overflow (vlqUnpack s.decBase s.source).taken
        { s with source := (vlqUnpack s.decBase s.source).rest }) ∨
    (s.decOpen = true ∧ ∃ v, (vlqUnpack s.decBase s.source).how = .ok v ∧
      decodeValue post s = succeed (vlqUnpack s.decBase s.source).taken
        { s with source := (vlqUnpack s.decBase s.source).rest, result := post v }) := by
  by_cases h : s.decOpen = true
  · cases hu : (vlqUnpack s.decBase s.source).how with
    | insufficientData => exact .inr (.inl ⟨h, rfl, by simp only [decodeValue, if_pos h, hu]⟩)
    | overflow => exact .inr (.inr (.inl ⟨h, rfl, by simp only [decodeValue, if_pos h, hu]⟩))
    | ok v => exact .inr (.inr (.inr ⟨h, v, rfl, by simp only [decodeValue, if_pos h, hu]⟩))
  · exact .inl ⟨by simpa using h, by simp only [decodeValue, if_neg h]⟩

/-- No command stops the machine (R189): the state each one leads to. -/
theorem exec_eq_next (i : Instr) (s : State) :
    exec i s = .next
      (match i with
      | .nop => succeed 0 s
      | .zzenc => succeed 0 { s with result := zzEncWord (operandSigned s) }
      | .zzdec => succeed 0 { s with result := zzDecWord (operandUnsigned s) }
      | .uenc => encodeValue (operandUnsigned s) s
      | .senc => encodeValue (zzEncWord (operandSigned s)) s
      | .udec => decodeValue (fun v => v) s
      | .sdec => decodeValue zzDecWord s
      | .encOpen => succeed 0 { s with encBase := operandUnsigned s, encOpen := true }
      | .encClose => if s.encOpen then succeed 0 { sinkClose s with encOpen := false } else raiseError .misuse 0 s
      | .decOpen => succeed 0 { s with decBase := operandUnsigned s, decOpen := true }
      | .decClose => if s.decOpen then succeed 0 { s with decOpen := false } else raiseError .misuse 0 s) := by
  cases i
  case encClose => cases h : s.encOpen <;> simp [exec, execEncClose, h]
  case decClose => cases h : s.decOpen <;> simp [exec, execDecClose, h]
  all_goals rfl

/-! ### The window -/

/-- The window is 64 bytes long (R50). -/
theorem inWindow_iff (off : Nat) : inWindow off = true ↔ off < 64 := decide_eq_true_iff

/-- What a host read can do. -/
theorem hostLoad_cases (off width : Nat) (s : State) :
    (64 ≤ off ∧ hostLoad off width s = .fault .outsideWindow) ∨
    (off < 64 ∧ definedAccess off width = false ∧ hostLoad off width s = .next (recordLoad off 0#64 s)) ∨
    (definedAccess off width = true ∧ off = 0x18 ∧ ¬s.StatusLegal ∧ hostLoad off width s = .refused .reservedStatus) ∨
    (definedAccess off width = true ∧ ¬(off = 0x18 ∧ ¬s.StatusLegal) ∧
      hostLoad off width s = .next (recordLoad off (readReg off s) s)) := by
  unfold hostLoad
  by_cases hw : inWindow off = true
  · have hlt : off < 64 := (inWindow_iff off).mp hw
    by_cases hd : definedAccess off width = true
    · by_cases hs : off = 0x18 ∧ ¬s.StatusLegal
      · exact .inr (.inr (.inl ⟨hd, hs.1, hs.2, by rw [if_pos hw, if_pos hd, if_pos hs]⟩))
      · exact .inr (.inr (.inr ⟨hd, hs, by rw [if_pos hw, if_pos hd, if_neg hs]⟩))
    · exact .inr (.inl ⟨hlt, by simpa using hd, by rw [if_pos hw, if_neg hd]; rfl⟩)
  · exact .inl ⟨Nat.le_of_not_lt (mt (inWindow_iff off).mpr hw), by rw [if_neg hw]⟩

/-- What a host write can do. -/
theorem hostStore_cases (off width : Nat) (data : Word) (s : State) :
    (64 ≤ off ∧ hostStore off width data s = .fault .outsideWindow) ∨
    (off < 64 ∧ definedAccess off width = false ∧ hostStore off width data s = .next s) ∨
    (off = 0 ∧ width = 8 ∧ hostStore off width data s = runCommand data s) ∨
    (off ≠ 0 ∧ definedAccess off width = true ∧ hostStore off width data s = .next (writeReg off data s)) := by
  unfold hostStore
  by_cases hw : inWindow off = true
  · have hlt : off < 64 := (inWindow_iff off).mp hw
    by_cases hd : definedAccess off width = true
    · by_cases h0 : off = 0
      · refine .inr (.inr (.inl ⟨h0, ?_, by rw [if_pos hw, if_pos hd, if_pos h0]⟩))
        simp only [definedAccess, Bool.and_eq_true, beq_iff_eq] at hd
        exact hd.1.1
      · exact .inr (.inr (.inr ⟨h0, hd, by rw [if_pos hw, if_pos hd, if_neg h0]⟩))
    · exact .inr (.inl ⟨hlt, by simpa using hd, by rw [if_pos hw, if_neg hd]; rfl⟩)
  · exact .inl ⟨Nat.le_of_not_lt (mt (inWindow_iff off).mpr hw), by rw [if_neg hw]⟩

/-- A write that starts no command changes OPERAND or nothing. -/
theorem writeReg_eq (off : Nat) (data : Word) (s : State) :
    writeReg off data s = { s with operand := if off = 0x08 then data else s.operand } := by
  unfold writeReg
  split
  · rfl
  · rename_i h
    rw [if_neg (fun e => h e)]

end Sys2Proof.Machine
end

