-- ==== Sys2Proof/Laws/PerInstr.lean ====
section
/-! SUPPORT. What holds of every command as syntax, one lemma per constructor: the word it is written as is a legal command
word by R78 and R81, and its reserved field is clear. -/

/-- The word a command is encoded as is legal, with OPC in bits 7:0 and nothing above (30_encoding.md R78, R81). -/
def Sys2Proof.Laws.LegalEncoding.Statement (i : Sys2Proof.Instr) : Prop :=
  Sys2Proof.legalWord (Sys2Proof.encode i) = true ∧
    (Sys2Proof.encode i).toNat = (Sys2Proof.opcodeOf i).toNat

theorem Sys2Proof.Laws.LegalEncoding.nop : Sys2Proof.Laws.LegalEncoding.Statement .nop := by
  unfold Sys2Proof.Laws.LegalEncoding.Statement; decide

theorem Sys2Proof.Laws.LegalEncoding.zzenc : Sys2Proof.Laws.LegalEncoding.Statement .zzenc := by
  unfold Sys2Proof.Laws.LegalEncoding.Statement; decide

theorem Sys2Proof.Laws.LegalEncoding.zzdec : Sys2Proof.Laws.LegalEncoding.Statement .zzdec := by
  unfold Sys2Proof.Laws.LegalEncoding.Statement; decide

theorem Sys2Proof.Laws.LegalEncoding.uenc : Sys2Proof.Laws.LegalEncoding.Statement .uenc := by
  unfold Sys2Proof.Laws.LegalEncoding.Statement; decide

theorem Sys2Proof.Laws.LegalEncoding.senc : Sys2Proof.Laws.LegalEncoding.Statement .senc := by
  unfold Sys2Proof.Laws.LegalEncoding.Statement; decide

theorem Sys2Proof.Laws.LegalEncoding.udec : Sys2Proof.Laws.LegalEncoding.Statement .udec := by
  unfold Sys2Proof.Laws.LegalEncoding.Statement; decide

theorem Sys2Proof.Laws.LegalEncoding.sdec : Sys2Proof.Laws.LegalEncoding.Statement .sdec := by
  unfold Sys2Proof.Laws.LegalEncoding.Statement; decide

theorem Sys2Proof.Laws.LegalEncoding.encOpen : Sys2Proof.Laws.LegalEncoding.Statement .encOpen := by
  unfold Sys2Proof.Laws.LegalEncoding.Statement; decide

theorem Sys2Proof.Laws.LegalEncoding.encClose : Sys2Proof.Laws.LegalEncoding.Statement .encClose := by
  unfold Sys2Proof.Laws.LegalEncoding.Statement; decide

theorem Sys2Proof.Laws.LegalEncoding.decOpen : Sys2Proof.Laws.LegalEncoding.Statement .decOpen := by
  unfold Sys2Proof.Laws.LegalEncoding.Statement; decide

theorem Sys2Proof.Laws.LegalEncoding.decClose : Sys2Proof.Laws.LegalEncoding.Statement .decClose := by
  unfold Sys2Proof.Laws.LegalEncoding.Statement; decide
end

