-- ==== Sys2Proof/Laws/Vlq.lean ====
section
/-! SUPPORT. The arithmetic of the wire format and one lemma per way the decoder's loop goes on or ends (42_vlq_decoder.md
R130; 30_encoding.md R71, R74). -/

namespace Sys2Proof.Machine

/-- Σ of 128^i for i < n: what the tier-boundary additions of n bytes come to. -/
def ones (n : Nat) : Nat :=
  match n with
  | 0 => 0
  | k + 1 => ones k + 128 ^ k

theorem tierStart_succ (n : Nat) : tierStart (n + 1) + 1 = ones (n + 1) := by
  induction n with
  | zero => rfl
  | succ k ih => simp only [tierStart, ones] at *; omega

theorem localMagnitude_eq (bytes : List Byte) :
    localMagnitude bytes = digitSum bytes + ones bytes.length - 1 := by
  cases bytes with
  | nil => rfl
  | cons b rest =>
    have h := tierStart_succ rest.length
    simp only [localMagnitude, List.length_cons]
    omega

/-- One more byte at the least significant end. -/
theorem ones_succ_left (n : Nat) : ones (n + 1) = 1 + 128 * ones n := by
  induction n with
  | zero => rfl
  | succ k ih =>
    have e : 128 ^ (k + 1) = 128 * 128 ^ k := by rw [Nat.pow_succ, Nat.mul_comm]
    have hs : ones (k + 1 + 1) = ones (k + 1) + 128 ^ (k + 1) := rfl
    have ht : ones (k + 1) = ones k + 128 ^ k := rfl
    omega

theorem digitSum_append (a b : List Byte) : digitSum (a ++ b) = digitSum a + 128 ^ a.length * digitSum b := by
  induction a with
  | nil => simp [digitSum]
  | cons x rest ih =>
    have e : 128 ^ (rest.length + 1) * digitSum b = 128 * (128 ^ rest.length * digitSum b) := by
      rw [Nat.pow_succ, Nat.mul_comm (128 ^ rest.length) 128, Nat.mul_assoc]
    simp only [List.cons_append, digitSum, ih, List.length_cons, e]
    omega

/-- What one byte adds to the accumulated magnitude at position j. -/
theorem acc_step (acc j d : Nat) (rest : Nat) (n : Nat) :
    acc + (d + 1) * 128 ^ j + 128 ^ (j + 1) * (rest + ones n) = acc + 128 ^ j * (d + 128 * rest + ones (n + 1)) := by
  rw [ones_succ_left, Nat.pow_succ]
  ring

/-- The loop goes past bytes whose flags are clear while the value stays in range. -/
theorem unpackLoop_append (m : Nat) (queue : List Byte) :
    ∀ (bytes : List Byte) (acc j : Nat), noTerminal bytes = true →
      acc + 128 ^ j * (digitSum bytes + ones bytes.length) - 1 + m ≤ Config.maxU64 →
      unpackLoop m acc j (bytes ++ queue) =
        unpackLoop m (acc + 128 ^ j * (digitSum bytes + ones bytes.length)) (j + bytes.length) queue := by
  intro bytes
  induction bytes with
  | nil => intro acc j _ _; simp [digitSum, ones]
  | cons b rest ih =>
    intro acc j hflag hrange
    simp only [noTerminal, List.all_cons, Bool.and_eq_true, Bool.not_eq_true'] at hflag
    have hacc := acc_step acc j (b.toNat % 128) (digitSum rest) rest.length
    have hrange' : acc + (b.toNat % 128 + 1) * 128 ^ j + 128 ^ (j + 1) * (digitSum rest + ones rest.length) - 1 + m
        ≤ Config.maxU64 := by
      rw [hacc]; exact hrange
    have hfit : ¬Config.maxU64 < acc + (b.toNat % 128 + 1) * 128 ^ j - 1 + m := by omega
    have hrest := ih (acc + (b.toNat % 128 + 1) * 128 ^ j) (j + 1) hflag.2 hrange'
    simp only [List.cons_append, unpackLoop, hfit, if_false, hflag.1, Bool.false_eq_true]
    rw [hrest, hacc]
    simp only [digitSum, List.length_cons]
    congr 1
    omega

/-- The loop at a byte that takes the value past 2^64 − 1 (R131). -/
theorem unpackLoop_overflow (m acc j : Nat) (b : Byte) (rest : List Byte)
    (h : Config.maxU64 < acc + (b.toNat % 128 + 1) * 128 ^ j - 1 + m) :
    unpackLoop m acc j (b :: rest) = { how := .overflow, taken := j + 1, rest := rest } := by
  simp only [unpackLoop, if_pos h]

/-- The loop at a terminal byte in range (R133). -/
theorem unpackLoop_terminal (m acc j : Nat) (b : Byte) (rest : List Byte)
    (h : acc + (b.toNat % 128 + 1) * 128 ^ j - 1 + m ≤ Config.maxU64) (hb : bit b 7 = true) :
    unpackLoop m acc j (b :: rest) =
      { how := .ok (BitVec.ofNat 64 (acc + (b.toNat % 128 + 1) * 128 ^ j - 1 + m)), taken := j + 1, rest := rest } := by
  simp only [unpackLoop, if_neg (Nat.not_lt.mpr h), hb, if_true]

/-- A framed sequence is a string of clear flags and one terminal byte. -/
theorem framed_iff (bytes : List Byte) :
    framed bytes = true ↔ ∃ init b, bytes = init ++ [b] ∧ noTerminal init = true ∧ bit b 7 = true := by
  induction bytes with
  | nil => simp [framed]
  | cons x rest ih =>
    cases rest with
    | nil =>
      constructor
      · intro h; exact ⟨[], x, rfl, rfl, h⟩
      · rintro ⟨init, b, h, -, hb⟩
        cases init with
        | nil => simp only [List.nil_append, List.cons.injEq, and_true] at h; subst h; exact hb
        | cons y ys => simp at h
    | cons y ys =>
      have hf : framed (x :: y :: ys) = (!bit x 7 && framed (y :: ys)) := rfl
      rw [hf, Bool.and_eq_true, ih]
      constructor
      · rintro ⟨hx, init, b, h, hi, hb⟩
        exact ⟨x :: init, b, by rw [h]; rfl, by rw [noTerminal, List.all_cons, hx]; exact hi, hb⟩
      · rintro ⟨init, b, h, hi, hb⟩
        cases init with
        | nil => simp at h
        | cons z zs =>
          simp only [List.cons_append, List.cons.injEq] at h
          simp only [noTerminal, List.all_cons, Bool.and_eq_true] at hi
          exact ⟨by rw [h.1]; exact hi.1, zs, b, h.2, hi.2, hb⟩

/-- The packing loop's bound does not matter once it is large enough for the magnitude (R110). -/
theorem packLoop_bound (k x : Nat) (h : x < 128 ^ (k + 1)) : packLoop k x = packLoop (k + 1) x := by
  induction k generalizing x with
  | zero =>
    have hx : ¬0x7F < x := by omega
    simp only [packLoop, if_neg hx]
  | succ n ih =>
    rw [packLoop, packLoop]
    by_cases hx : 0x7F < x
    · have hs : x / 128 - 1 < 128 ^ (n + 1) := by
        have : x / 128 < 128 ^ (n + 1) := by
          rw [Nat.div_lt_iff_lt_mul (by decide)]
          rwa [← Nat.pow_succ]
        omega
      rw [if_pos hx, if_pos hx, ih _ hs]
    · rw [if_neg hx, if_neg hx]

end Sys2Proof.Machine
end

