-- ==== Sys2Proof/Tests/Slice0.lean ====
section
/-! SUPPORT. The model's own tests. Expected results are the spec's: the tables and worked examples of
95_test_vectors.md and the corner cases of each command's rule. Then, for every statement with hypotheses, a state and operands
that meet them. -/

namespace Sys2Proof.Machine.Tests

/-- The next state, if there is one. -/
def after (o : Host.Outcome State Fault Refusal) : Option State :=
  match o with
  | .next t => some t
  | .fault _ => none
  | .refused _ => none

/-- The reset state with an OPERAND and baselines. -/
def given (operand encBase decBase : Word) : State :=
  { State.reset with operand := operand, encBase := encBase, decBase := decBase }

/-- The reset state with a source and a DEC_BASE. -/
def withSource (bytes : List Byte) (decBase : Word) : State :=
  { State.reset with source := bytes, decBase := decBase, result := 0x55#64 }

/-- The reset state with one move to make. -/
def facing (m : HostMove) : State := { State.reset with moves := [m] }

/-- The reset state with a channel closed. -/
def encClosed : State := { State.reset with encOpen := false, operand := 5#64, encBase := 9#64 }

/-- The reset state with the decoder channel closed and a byte in the source. -/
def decClosed : State := { State.reset with decOpen := false, source := [0x80#8] }

/-- What a command leaves in a field. -/
def field {α : Type} (i : Instr) (s : State) (f : State → α) : Option α := (after (exec i s)).map f

/-! ## Well-formedness: for each check a term that it refuses -/

/-- R81: RSV ≠ 0 although OPC = 0x10 (95 section 2.5). -/
theorem test_word_with_reserved_bits_refused : legalWord 0x0000000000000110#64 = false := by decide

/-- R81: the first and last words of the reserved ranges (95 section 2.5). -/
theorem test_words_with_reserved_opcode_refused :
    [0x03#64, 0x0F#64, 0x12#64, 0x1F#64, 0x22#64, 0x2F#64, 0x32#64, 0x37#64, 0x3A#64, 0xFF#64].all
      (fun c => !legalWord c) = true := by decide

/-- R51: a narrow access, a misaligned one and one at a reserved offset are not defined (95 section 2.5). -/
theorem test_odd_accesses_refused :
    definedAccess 0x00 4 = false ∧ definedAccess 0x04 8 = false ∧ definedAccess 0x30 8 = false ∧
    definedAccess 0x38 8 = false ∧ definedAccess 0x28 8 = true := by decide

/-- R83: NOP is written with no operand. -/
theorem test_operand_on_nop_refused :
    stmtWellFormed (.cmd .nop (some 1#64)) = false ∧ stmtWellFormed (.cmd .uenc (some 1#64)) = true := by decide

/-- R50: an access at 0x40 does not reach the window. -/
theorem test_move_outside_window_refused : moveInWindow (.load 0x40 8) = false ∧ moveInWindow (.load 0x3F 1) = true := by
  decide

/-! ## Decoding: words written out bit by bit from R78 and R80 -/

/-- OPC 0000_0001 and 0000_0010, the zigzag family. -/
theorem test_decode_zigzag_words :
    decodeTableWord 64 0b00000001 = some .zzenc ∧ decodeTableWord 64 0b00000010 = some .zzdec := by decide

/-- OPC 0001_0000 and 0001_0001, the encoder and its signed form. -/
theorem test_decode_encoder_words :
    decodeTableWord 64 0b00010000 = some .uenc ∧ decodeTableWord 64 0b00010001 = some .senc := by decide

/-- OPC 0010_0000 and 0010_0001, the decoder and its signed form. -/
theorem test_decode_decoder_words :
    decodeTableWord 64 0b00100000 = some .udec ∧ decodeTableWord 64 0b00100001 = some .sdec := by decide

/-- OPC 0000_0000, 0011_0000, 0011_0001, 0011_1000 and 0011_1001, the control family. -/
theorem test_decode_control_words :
    decodeTableWord 64 0b00000000 = some .nop ∧ decodeTableWord 64 0b00110000 = some .encOpen ∧
    decodeTableWord 64 0b00110001 = some .encClose ∧ decodeTableWord 64 0b00111000 = some .decOpen ∧
    decodeTableWord 64 0b00111001 = some .decClose := by decide

/-- 95 section 2.5: illegal words, each rejected for its own reason. -/
theorem test_decode_rejects_by_name :
    decode 0x8000000000000020#64 = .error .reservedBitsSet ∧ decode 0x3A#64 = .error .opcodeUnassigned := by
  constructor <;> rfl

/-- Every command's word decodes to it. -/
theorem test_decode_of_every_encoding :
    [Instr.nop, .zzenc, .zzdec, .uenc, .senc, .udec, .sdec, .encOpen, .encClose, .decOpen, .decClose].all
      (fun i => decodeTableWord 64 (encode i).toNat == some i) = true := by decide

/-! ## Commands -/

/-- R103: s = −2 gives 3. -/
theorem test_zzenc_minus_two : field .zzenc (given 0xFFFFFFFFFFFFFFFE#64 0 0) State.result = some 3#64 := by decide

/-- R103: s = −2^63 gives the largest image. -/
theorem test_zzenc_most_negative :
    field .zzenc (given 0x8000000000000000#64 0 0) State.result = some 0xFFFFFFFFFFFFFFFF#64 := by decide

/-- R104: u = 3 gives −2. -/
theorem test_zzdec_three : field .zzdec (given 3#64 0 0) State.result = some 0xFFFFFFFFFFFFFFFE#64 := by decide

/-- R104: u = 2^64 − 2 gives 2^63 − 1. -/
theorem test_zzdec_largest_even :
    field .zzdec (given 0xFFFFFFFFFFFFFFFE#64 0 0) State.result = some 0x7FFFFFFFFFFFFFFF#64 := by decide

/-- 95 section 2.2: v = 16511 at m = 0 is the last value of two bytes. -/
theorem test_uenc_last_of_second_tier :
    field .uenc (given 16511#64 0 0) (fun t => (t.sinkLog, t.nbytes)) =
      some ([.append 0x7F#8, .append 0xFF#8], 2#4) := by decide

/-- 95 section 2.2: 2^64 − 1 at m = 2^63 takes nine bytes; the baseline is subtracted once. -/
theorem test_uenc_largest_at_high_baseline :
    field .uenc (given 0xFFFFFFFFFFFFFFFF#64 0x8000000000000000#64 0) (fun t => (t.sinkLog, t.nbytes)) =
      some ([.append 0x7F#8, .append 0x7E#8, .append 0x7E#8, .append 0x7E#8, .append 0x7E#8, .append 0x7E#8,
        .append 0x7E#8, .append 0x7E#8, .append 0xFE#8], 9#4) := by decide

/-- R150: s = −65 (u = 129). -/
theorem test_senc_minus_sixty_five :
    field .senc (given 0xFFFFFFFFFFFFFFBF#64 0 0) (fun t => (t.sinkLog, t.result)) =
      some ([.append 0x01#8, .append 0x80#8], 0#64) := by decide

/-- R150: at m = 3, s = −1 (u = 1) is PRECONDITION. -/
theorem test_senc_below_baseline :
    field .senc (given 0xFFFFFFFFFFFFFFFF#64 3#64 0) (fun t => (t.sinkLog, t.err)) = some ([], 3#4) := by decide

/-- R134: `2C 81 FF` at m = 0 gives 300 and leaves FF. -/
theorem test_udec_leaves_the_rest :
    field .udec (withSource [0x2C#8, 0x81#8, 0xFF#8] 0) (fun t => (t.result, t.nbytes, t.source)) =
      some (300#64, 2#4, [0xFF#8]) := by decide

/-- 95 section 2.3: ten bytes 00, then 80 55: OVERFLOW at byte 11. -/
theorem test_udec_overflow_at_byte_eleven :
    field .udec (withSource (List.replicate 10 0x00#8 ++ [0x80#8, 0x55#8]) 0)
      (fun t => (t.err, t.nbytes, t.result, t.source)) = some (2#4, 11#4, 0x55#64, [0x55#8]) := by decide

/-- R151: `01 FF` gives u = 16385 and −8193. -/
theorem test_sdec_two_bytes :
    field .sdec (withSource [0x01#8, 0xFF#8] 0) (fun t => (t.result, t.nbytes)) =
      some (0xFFFFFFFFFFFFDFFF#64, 2#4) := by decide

/-- 95 section 2.4: at m = 3, `80` gives u = 3 and −2. -/
theorem test_sdec_adds_the_baseline :
    field .sdec (withSource [0x80#8] 3#64) State.result = some 0xFFFFFFFFFFFFFFFE#64 := by decide

/-- R160: STATUS 0x312 before NOP gives 0x300. -/
theorem test_nop_clears_status :
    field .nop { State.reset with err := 2#4, nbytes := 1#4 } statusWord = some 0x300#64 := by decide

/-- R161: OPERAND = 100 then ENC_OPEN gives ENC_BASE = 100, on a closed channel too. -/
theorem test_enc_open_sets_base :
    field .encOpen { State.reset with operand := 100#64, encOpen := false } (fun t => (t.encBase, statusWord t)) =
      some (100#64, 0x300#64) := by decide

/-- R162: from reset ENC_CLOSE appends Close and gives STATUS 0x200. -/
theorem test_enc_close_from_reset :
    field .encClose State.reset (fun t => (t.sinkLog, statusWord t)) = some ([.close], 0x200#64) := by decide

/-- 95 section 2.5: a second ENC_CLOSE gives STATUS 0x204 and no second Close. -/
theorem test_enc_close_twice :
    field .encClose { State.reset with encOpen := false, sinkLog := [.close] } (fun t => (t.sinkLog, statusWord t)) =
      some ([.close], 0x204#64) := by decide

/-- R163: DEC_OPEN sets the baseline and leaves the source. -/
theorem test_dec_open_sets_base :
    field .decOpen { decClosed with operand := 100#64 } (fun t => (t.decBase, t.source, statusWord t)) =
      some (100#64, [0x80#8], 0x300#64) := by decide

/-- R164: from reset DEC_CLOSE gives STATUS 0x100. -/
theorem test_dec_close_from_reset : field .decClose State.reset statusWord = some 0x100#64 := by decide

/-- 95 section 2.5: UDEC after DEC_CLOSE gives STATUS 0x104 and takes no byte. -/
theorem test_udec_on_closed_channel :
    field .udec decClosed (fun t => (statusWord t, t.source)) = some (0x104#64, [0x80#8]) := by decide

/-- 95 section 2.5: MISUSE wins over PRECONDITION. -/
theorem test_uenc_misuse_before_precondition : field .uenc encClosed statusWord = some 0x204#64 := by decide

/-! ## Steps -/

/-- 95 section 2.5: a word with RSV ≠ 0 gives STATUS 0x305. -/
theorem test_step_illegal_word :
    (after (step (facing (.store 0x00 8 0x110#64)))).map (fun t => (statusWord t, t.moves)) = some (0x305#64, []) := by
  decide

/-- 95 section 2.5: a 32-bit write of 0x10 to CMD is ignored. -/
theorem test_step_narrow_write_ignored :
    after (step { facing (.store 0x00 4 0x10#64) with source := [1#8] }) = some { State.reset with source := [1#8] } := by
  decide

/-- R21: a write of RESULT is ignored. -/
theorem test_step_write_of_result_ignored : after (step (facing (.store 0x10 8 5#64))) = some State.reset := by decide

/-- 95 section 2.5: LD STATUS from reset returns 0x300. -/
theorem test_step_load_status :
    (after (step (facing (.load 0x18 8)))).map State.seen = some [.loaded 0x18 0x300#64] := by decide

/-- A placed word runs in the very next step: ENC_CLOSE. -/
theorem test_step_placed_word :
    (after (step (State.reset.withFetchWord 64 0x31))).map State.sinkLog = some [.close] := by decide

/-- R200: reset leaves the streams. -/
theorem test_step_reset_keeps_streams :
    (after (step { facing .reset with operand := 7#64, source := [1#8], sinkLog := [.close], err := 5#4 })).map
      (fun t => (t.operand, t.source, t.sinkLog, statusWord t)) = some (0#64, [1#8], [.close], 0x300#64) := by decide

/-! ## Host programs -/

/-- R82: the statements, numbers and comments of a program's text (95 section 3, P1 and P3). -/
theorem test_parse_statements :
    parseProgram "ST OPERAND, -1 ; s\n\nST CMD, 0x11\nLD RESULT".toList =
      some [.st .operand 0xFFFFFFFFFFFFFFFF#64, .st .cmd 0x11#64, .ld .result] := by decide

/-- R83, R84: mnemonics with and without an operand, and the bulk statements. -/
theorem test_parse_mnemonics :
    parseProgram "UENC 5\nUENC\nBULK_ENC 0, 128\nBULK_DEC".toList =
      some [.cmd .uenc (some 5#64), .cmd .uenc none, .bulkEnc [0#64, 128#64], .bulkDec] := by decide

/-- R83: a `<u64>` is not negative. -/
theorem test_parse_negative_u64_rejected : parseProgram "UENC -1".toList = none := by decide

/-- R83: `ENC_OPEN 7` is a store to OPERAND and one to CMD. -/
theorem test_expand_enc_open :
    expand (.cmd .encOpen (some 7#64)) = [.store 0x08 8 7#64, .store 0x00 8 0x30#64] := by decide

/-! ## Witnesses: states and operands that meet a statement's hypotheses, for each of its clauses -/

theorem witness_IllegalWordsReportAndDoNothingElse :
    ¬(∃ i, decode 0x110#64 = .ok i) ∧ ¬(∃ i, decode 0x3A#64 = .ok i) := by
  constructor <;> (rintro ⟨i, h⟩; exact nomatch h)

theorem witness_StepRunsTheDecodedCommand :
    (facing (.store 0x00 8 0x39#64)).moves = .store 0x00 8 0x39#64 :: [] ∧ decode 0x39#64 = .ok .decClose ∧
    decode 0x3A#64 = .error .opcodeUnassigned := ⟨rfl, rfl, rfl⟩

theorem witness_PlacedWordRunsNext : decodeTableWord 64 0x10 = some .uenc := by decide

theorem witness_IdleKeepsAllState : State.reset.moves = [] := rfl

theorem witness_PseudoInstructionRunsItsCommand :
    ({ State.reset with moves := [.store 0x08 8 5#64, .store 0x00 8 0x10#64, .readSink] } : State).moves =
      expand (.cmd .uenc (some 5#64)) ++ [.readSink] := by decide

theorem witness_ZigzagIsABijectionWithItsBitForms :
    (-2 ^ 63 : Int) ≤ -2 ^ 63 ∧ (-2 ^ 63 : Int) < 2 ^ 63 ∧ 2 ^ 64 - 1 < 2 ^ 64 := by decide

theorem witness_PackTakesSevenBitsAPass : 0x7F#64 ≤ 0x7F#64 ∧ 0x7F#64 < 0x80#64 := by decide

theorem witness_PackIsTheClosedForm :
    (1 ≤ 2 ∧ tierStart 2 ≤ (16511#64).toNat ∧ (16511#64).toNat < tierStart (2 + 1)) ∧
    (1 ≤ 10 ∧ tierStart 10 ≤ (0xFFFFFFFFFFFFFFFF#64).toNat ∧ (0xFFFFFFFFFFFFFFFF#64).toNat < tierStart (10 + 1)) := by
  decide

theorem witness_EveryMagnitudeHasOneEncoding :
    (1 ≤ 1 ∧ tierStart 1 ≤ (127#64).toNat ∧ (127#64).toNat < tierStart (1 + 1)) ∧
    (framed [0x00#8, 0x80#8] = true ∧ localMagnitude [0x00#8, 0x80#8] = (128#64).toNat) ∧ 127#64 ≤ 128#64 := by decide

theorem witness_FramedSequencesAndValuesAreInverse :
    (framed [0x80#8] = true ∧ localMagnitude [0x80#8] + (0xFFFFFFFFFFFFFFFF#64).toNat ≤ 2 ^ 64 - 1) ∧
    (framed [0x81#8] = true ∧ 2 ^ 64 - 1 < localMagnitude [0x81#8] + (0xFFFFFFFFFFFFFFFF#64).toNat) := by decide

theorem witness_TenByteSequencesEndInEighty :
    (framed (List.replicate 9 0x00#8 ++ [0x80#8]) = true ∧
      localMagnitude (List.replicate 9 0x00#8 ++ [0x80#8]) ≤ 2 ^ 64 - 1) ∧
    (framed (List.replicate 9 0x00#8 ++ [0x81#8]) = true ∧
      (List.replicate 9 0x00#8 ++ [0x81#8]).getLast? ≠ some 0x80#8) := by decide

theorem witness_RaisingTheBaselineNeverLengthens : 0#64 ≤ 900#64 ∧ 900#64 ≤ 1000#64 := by decide

theorem witness_DecodeOfEncodeGivesTheValueBack : 100#64 ≤ 228#64 := by decide

theorem witness_UencAppendsTheEncoding :
    encClosed.encOpen = false ∧
    ((given 99#64 100#64 0).encOpen = true ∧ (given 99#64 100#64 0).operand < (given 99#64 100#64 0).encBase) ∧
    ((given 228#64 100#64 0).encOpen = true ∧ (given 228#64 100#64 0).encBase ≤ (given 228#64 100#64 0).operand ∧ 1 ≤ 2 ∧
      tierStart 2 ≤ (given 228#64 100#64 0).operand.toNat - (given 228#64 100#64 0).encBase.toNat ∧
      (given 228#64 100#64 0).operand.toNat - (given 228#64 100#64 0).encBase.toNat < tierStart 3) := by decide

theorem witness_SencCompletes :
    ((3 : Nat) : Int) = (if 0 ≤ (given 0xFFFFFFFFFFFFFFFE#64 3#64 0).operand.toInt
      then 2 * (given 0xFFFFFFFFFFFFFFFE#64 3#64 0).operand.toInt
      else -2 * (given 0xFFFFFFFFFFFFFFFE#64 3#64 0).operand.toInt - 1) ∧
    (given 0xFFFFFFFFFFFFFFFE#64 3#64 0).encOpen = true ∧ (given 0xFFFFFFFFFFFFFFFE#64 3#64 0).encBase.toNat ≤ 3 ∧ 1 ≤ 1 ∧
    tierStart 1 ≤ 3 - (given 0xFFFFFFFFFFFFFFFE#64 3#64 0).encBase.toNat ∧
    3 - (given 0xFFFFFFFFFFFFFFFE#64 3#64 0).encBase.toNat < tierStart 2 := by decide

theorem witness_SencBelowTheBaseline :
    ((1 : Nat) : Int) = (if 0 ≤ (given 0xFFFFFFFFFFFFFFFF#64 3#64 0).operand.toInt
      then 2 * (given 0xFFFFFFFFFFFFFFFF#64 3#64 0).operand.toInt
      else -2 * (given 0xFFFFFFFFFFFFFFFF#64 3#64 0).operand.toInt - 1) ∧
    (given 0xFFFFFFFFFFFFFFFF#64 3#64 0).encOpen = true ∧ 1 < (given 0xFFFFFFFFFFFFFFFF#64 3#64 0).encBase.toNat := by
  decide

theorem witness_SencClosedChannel :
    ((10 : Nat) : Int) = (if 0 ≤ encClosed.operand.toInt then 2 * encClosed.operand.toInt
      else -2 * encClosed.operand.toInt - 1) ∧ encClosed.encOpen = false := by decide

theorem witness_DecodeTakesAtMostElevenBytes : (vlqUnpack 0#64 [0x80#8]).how = .ok 0#64 := by decide

theorem witness_DecodersOnAClosedChannel : decClosed.decOpen = false := rfl

/-- The baseline 100 and one value, with a byte after it. -/
theorem witness_DecodersComplete :
    (withSource [0x81#8, 0xFF#8] 100#64).decOpen = true ∧
    (withSource [0x81#8, 0xFF#8] 100#64).source = [0x81#8] ++ [0xFF#8] ∧ framed [0x81#8] = true ∧
    101 = localMagnitude [0x81#8] + (withSource [0x81#8, 0xFF#8] 100#64).decBase.toNat ∧ 101 ≤ 2 ^ 64 - 1 := by decide

/-- 95 section 2.3: at m = 2^64 − 1 the first byte of `00 80` is on the bound and the second past it. -/
theorem witness_DecodersOverflow :
    (withSource [0x00#8, 0x80#8] 0xFFFFFFFFFFFFFFFF#64).decOpen = true ∧
    (withSource [0x00#8, 0x80#8] 0xFFFFFFFFFFFFFFFF#64).source = [0x00#8] ++ 0x80#8 :: [] ∧ noTerminal [0x00#8] = true ∧
    localMagnitude [0x00#8] + (withSource [0x00#8, 0x80#8] 0xFFFFFFFFFFFFFFFF#64).decBase.toNat ≤ 2 ^ 64 - 1 ∧
    2 ^ 64 - 1 < localMagnitude ([0x00#8] ++ [0x80#8]) +
      (withSource [0x00#8, 0x80#8] 0xFFFFFFFFFFFFFFFF#64).decBase.toNat := by decide

theorem witness_DecodersRunOutOfData :
    (withSource [0x00#8] 0xFFFFFFFFFFFFFFFF#64).decOpen = true ∧
    noTerminal (withSource [0x00#8] 0xFFFFFFFFFFFFFFFF#64).source = true ∧
    localMagnitude (withSource [0x00#8] 0xFFFFFFFFFFFFFFFF#64).source +
      (withSource [0x00#8] 0xFFFFFFFFFFFFFFFF#64).decBase.toNat ≤ 2 ^ 64 - 1 := by decide

theorem witness_SdecIsUdecThenZzdec :
    (field .sdec (withSource [0x81#8] 0) State.err = some 0#4) ∧ (field .sdec (withSource [] 0) State.err = some 1#4) := by
  decide

theorem witness_ClosesOpenAndClosed :
    State.reset.encOpen = true ∧ encClosed.encOpen = false ∧ State.reset.decOpen = true ∧ decClosed.decOpen = false := by
  decide

/-- A command that ends in an error: for the statements about what an error keeps. -/
theorem witness_CommandEndsInAnError : ∃ t, exec .udec (withSource [0x00#8] 0) = .next t ∧ t.err ≠ 0#4 ∧ t.err = 1#4 :=
  ⟨_, rfl, by decide, by decide⟩

/-- A command that writes no RESULT: for the statements over every command. -/
theorem witness_CommandWithoutResult :
    ∃ t, exec .uenc (given 5#64 0 0) = .next t ∧
      ¬((Instr.uenc = .zzenc ∨ Instr.uenc = .zzdec ∨ Instr.uenc = .udec ∨ Instr.uenc = .sdec) ∧ t.err = 0#4) :=
  ⟨_, rfl, by decide⟩

/-- NBYTES is 0 after a command that moves no byte: for the last clause of the streams' statement. -/
theorem witness_CommandWithoutBytes :
    ¬(Instr.zzenc = .uenc ∨ Instr.zzenc = .senc ∨ Instr.zzenc = .udec ∨ Instr.zzenc = .sdec) ∧
    ∃ t, exec .zzenc (given 5#64 0 0) = .next t := ⟨by decide, _, rfl⟩

theorem witness_ReservedStatusValuesAreNeverWritten : ∃ t, runCommand 0x110#64 State.reset = .next t := ⟨_, rfl⟩

theorem witness_WindowAccessesFollowTheTable :
    (0x00 < 0x40 ∧ (facing (.store 0x00 8 0x10#64)).moves = .store 0x00 8 0x10#64 :: []) ∧
    (0x08 < 0x40 ∧ (facing (.store 0x08 8 5#64)).moves = .store 0x08 8 5#64 :: [] ∧ ¬(0x08 = 0 ∧ 8 = 8)) ∧
    (0x3F < 0x40 ∧ (facing (.store 0x3F 1 5#64)).moves = .store 0x3F 1 5#64 :: []) ∧
    (0x18 < 0x40 ∧ (facing (.load 0x18 8)).moves = .load 0x18 8 :: [] ∧ (facing (.load 0x18 8)).StatusLegal) := by decide

theorem witness_ReadOfReservedStatusIsRefused :
    ({ facing (.load 0x18 8) with err := 6#4 } : State).moves = .load 0x18 8 :: [] ∧
    ¬({ facing (.load 0x18 8) with err := 6#4 } : State).StatusLegal ∧
    ¬({ facing (.load 0x18 8) with nbytes := 12#4 } : State).StatusLegal := by decide

theorem witness_AccessOutsideTheWindowFaults :
    0x40 ≤ 0x40 ∧ (facing (.store 0x40 8 1#64)).moves = .store 0x40 8 1#64 :: [] ∧
    (facing (.load 0x40 8)).moves = .load 0x40 8 :: [] := by decide

theorem witness_HostStreamMovesAddAndRead :
    (facing (.feed [1#8])).moves = .feed [1#8] :: [] ∧ (facing .readSink).moves = .readSink :: [] := by decide

theorem witness_ResetMoves :
    (facing .reset).moves = .reset :: [] ∧ (facing (.resetDuring 0x31#64)).moves = .resetDuring 0x31#64 :: [] := by decide

theorem witness_EveryStepKeepsAGoodState :
    (facing (.store 0x00 8 0x20#64)).Good ∧ ∃ t, step (facing (.store 0x00 8 0x20#64)) = .next t := ⟨by decide, _, rfl⟩

/-- A BULK_ENC to do at baseline 5. -/
def bulkEncoding (values : List Word) : State := { given 0#64 5#64 0 with moves := [.bulkEnc values] }

theorem witness_BulkEncAllEncoded :
    (bulkEncoding [5#64, 6#64]).moves = .bulkEnc [5#64, 6#64] :: [] ∧ (bulkEncoding [5#64, 6#64]).encOpen = true ∧
    ∀ v ∈ [5#64, 6#64], (bulkEncoding [5#64, 6#64]).encBase ≤ v := ⟨rfl, rfl, by simp [bulkEncoding, given]⟩

theorem witness_BulkEncStopsBelowTheBaseline :
    (bulkEncoding [6#64, 4#64]).moves = .bulkEnc [6#64, 4#64] :: [] ∧ (bulkEncoding [6#64, 4#64]).encOpen = true ∧
    [6#64, 4#64] = [6#64] ++ 4#64 :: [] ∧ (∀ w ∈ [6#64], (bulkEncoding [6#64, 4#64]).encBase ≤ w) ∧
    4#64 < (bulkEncoding [6#64, 4#64]).encBase := ⟨rfl, rfl, rfl, by simp [bulkEncoding, given], by decide⟩

theorem witness_BulkEncStopsOnAClosedChannel :
    ({ bulkEncoding [6#64] with encOpen := false } : State).moves = .bulkEnc [6#64] :: [] ∧
    ({ bulkEncoding [6#64] with encOpen := false } : State).encOpen = false ∧ [6#64] ≠ [] := ⟨rfl, rfl, by simp⟩

/-- A BULK_DEC to do at baseline 100. -/
def bulkDecoding (bytes : List Byte) : State := { withSource bytes 100#64 with moves := [.bulkDec []] }

/-- P2 of 95_test_vectors.md: 100, 227 and 228 at baseline 100, then a truncated value. -/
theorem witness_BulkDecGivesTheEncodedValuesBack :
    (bulkDecoding [0x80#8, 0xFF#8, 0x00#8, 0x80#8, 0x00#8]).moves = .bulkDec [] :: [] ∧
    (bulkDecoding [0x80#8, 0xFF#8, 0x00#8, 0x80#8, 0x00#8]).decOpen = true ∧
    (∀ v ∈ [100#64, 227#64, 228#64], (bulkDecoding [0x80#8, 0xFF#8, 0x00#8, 0x80#8, 0x00#8]).decBase ≤ v) ∧
    (bulkDecoding [0x80#8, 0xFF#8, 0x00#8, 0x80#8, 0x00#8]).source =
      [100#64, 227#64, 228#64].flatMap (fun v => vlqPack (v - 100#64)) ++ [0x00#8] ∧
    noTerminal [0x00#8] = true ∧ localMagnitude [0x00#8] + (100#64).toNat ≤ 2 ^ 64 - 1 :=
  ⟨rfl, rfl, by simp [bulkDecoding, withSource], by decide, by decide, by decide⟩

/-- P2 of 95_test_vectors.md without its last byte: the source ends at a value boundary, so the tail is empty. -/
theorem witness_BulkDecEndsAtAValueBoundary :
    (bulkDecoding [0x80#8, 0xFF#8, 0x00#8, 0x80#8]).moves = .bulkDec [] :: [] ∧
    (bulkDecoding [0x80#8, 0xFF#8, 0x00#8, 0x80#8]).decOpen = true ∧
    (∀ v ∈ [100#64, 227#64, 228#64], (bulkDecoding [0x80#8, 0xFF#8, 0x00#8, 0x80#8]).decBase ≤ v) ∧
    (bulkDecoding [0x80#8, 0xFF#8, 0x00#8, 0x80#8]).source =
      [100#64, 227#64, 228#64].flatMap (fun v => vlqPack (v - 100#64)) ++ [] ∧
    noTerminal [] = true ∧ localMagnitude [] + (100#64).toNat ≤ 2 ^ 64 - 1 :=
  ⟨rfl, rfl, by simp [bulkDecoding, withSource], by decide, by decide, by decide⟩

/-- A BULK_DEC at baseline 2^64 − 1: one value, then a byte on the bound, one past it and one left over. -/
def bulkOverflowing : State :=
  { withSource [0x80#8, 0x00#8, 0x80#8, 0x55#8] 0xFFFFFFFFFFFFFFFF#64 with moves := [.bulkDec []] }

theorem witness_BulkDecFailsOnOverflow :
    bulkOverflowing.moves = .bulkDec [] :: [] ∧ bulkOverflowing.decOpen = true ∧
    (∀ v ∈ [0xFFFFFFFFFFFFFFFF#64], bulkOverflowing.decBase ≤ v) ∧
    bulkOverflowing.source =
      [0xFFFFFFFFFFFFFFFF#64].flatMap (fun v => vlqPack (v - bulkOverflowing.decBase)) ++ ([0x00#8] ++ 0x80#8 :: [0x55#8]) ∧
    noTerminal [0x00#8] = true ∧ localMagnitude [0x00#8] + bulkOverflowing.decBase.toNat ≤ 2 ^ 64 - 1 ∧
    2 ^ 64 - 1 < localMagnitude ([0x00#8] ++ [0x80#8]) + bulkOverflowing.decBase.toNat :=
  ⟨rfl, rfl, by simp [bulkOverflowing, withSource], by decide, by decide, by decide, by decide⟩

theorem witness_BulkDecFailsOnMisuse :
    ({ decClosed with moves := [.bulkDec []] } : State).moves = .bulkDec [] :: [] ∧
    ({ decClosed with moves := [.bulkDec []] } : State).decOpen = false := ⟨rfl, rfl⟩

end Sys2Proof.Machine.Tests
end

/-! # Settling the statements about the state (10_state.md)

First a layer of facts about the shared operations: STATUS bit by bit, how many bytes one encoding and one decode move, what
the two codec bodies leave unchanged, and which outcomes they end in. Then the obligations, each assembled from that layer. -/

namespace Sys2Proof.Machine

/-! ### STATUS -/

/-- R25: STATUS bit by bit. No field reaches into another's bits, since each is `false` past its own width. -/
theorem statusWord_getLsbD (s : State) (i : Nat) :
    (statusWord s).getLsbD i =
      if i < 4 then s.err.getLsbD i
      else if i < 8 then s.nbytes.getLsbD (i - 4)
      else if i = 8 then s.encOpen
      else decide (i = 9) && s.decOpen := by
  have herr : 4 ≤ i → s.err.getLsbD i = false := s.err.getLsbD_of_ge i
  have hnbytes : 8 ≤ i → s.nbytes.getLsbD (i - 4) = false := fun h => s.nbytes.getLsbD_of_ge _ (by omega)
  simp only [statusWord, BitVec.getLsbD_or, BitVec.getLsbD_shiftLeft, BitVec.getLsbD_setWidth, BitVec.getLsbD_ofBool]
  grind

theorem statusWord_getLsbD_nbytes (s : State) {i : Nat} (hi : i < 4) :
    (statusWord s).getLsbD (4 + i) = s.nbytes.getLsbD i := by
  rw [statusWord_getLsbD, if_neg (by omega), if_pos (by omega), Nat.add_sub_cancel_left]

/-- R30: bits 63:10 of STATUS are 0. -/
theorem statusWord_getLsbD_high (s : State) {i : Nat} (hi : 10 ≤ i) : (statusWord s).getLsbD i = false := by
  rw [statusWord_getLsbD, if_neg (by omega), if_neg (by omega), if_neg (by omega), decide_eq_false (by omega),
    Bool.false_and]

theorem statusWord_shiftRight_ten (s : State) : statusWord s >>> 10 = 0#64 :=
  BitVec.eq_of_getLsbD_eq fun i _ => by
    rw [BitVec.getLsbD_ushiftRight, statusWord_getLsbD_high s (by omega), BitVec.getLsbD_zero]

/-! ### The bytes of one encoding -/

theorem length_packLoop_le (passes x : Nat) : (packLoop passes x).length ≤ passes + 1 := by
  induction passes generalizing x with
  | zero => simp [packLoop]
  | succ k ih =>
    rw [packLoop]
    split
    · simpa using ih _
    · simp

/-- R4: an encoding has at most `Config.maxLen` = 10 bytes. -/
theorem length_vlqPack_le (x : Word) : (vlqPack x).length ≤ 10 := length_packLoop_le 9 x.toNat

/-! ### The bytes of one decode -/

/-- R53: the loop takes its bytes from the head of the queue, and at least one unless the queue runs out first. -/
theorem unpackLoop_takes_head (m acc j : Nat) (queue : List Byte) :
    ∃ bytes, queue = bytes ++ (unpackLoop m acc j queue).rest ∧
      (unpackLoop m acc j queue).taken = j + bytes.length ∧
      ((unpackLoop m acc j queue).how ≠ .insufficientData → bytes ≠ []) := by
  fun_induction unpackLoop m acc j queue with
  | case1 acc j => exact ⟨[], by simp⟩
  | case2 acc j b rest acc' hover => exact ⟨[b], by simp⟩
  | case3 acc j b rest acc' hfit hterm => exact ⟨[b], by simp⟩
  | case4 acc j b rest acc' hfit hterm ih =>
    obtain ⟨bytes, hq, htaken, -⟩ := ih
    exact ⟨b :: bytes, by rw [List.cons_append, ← hq], by rw [htaken, List.length_cons]; omega, by simp⟩

/-- R135: the byte at position 10 always overflows, since the ten bytes before it already come to `ones 10`. -/
theorem lt_ten_of_fits {m acc j d : Nat} (hj : j ≤ 10) (hacc : ones j ≤ acc)
    (hfit : ¬Config.maxU64 < acc + (d + 1) * 128 ^ j - 1 + m) : j < 10 := by
  refine Nat.lt_of_le_of_ne hj fun h10 => hfit ?_
  subst h10
  have hmax : Config.maxU64 + 2 ≤ 128 ^ 10 := by decide
  have hdigit : 128 ^ 10 ≤ (d + 1) * 128 ^ 10 := Nat.le_mul_of_pos_left _ d.succ_pos
  omega

/-- R135: from a position no later than 10 the loop stops at the eleventh byte, and there only by overflow. -/
theorem unpackLoop_taken_le (m acc j : Nat) (queue : List Byte) (hj : j ≤ 10) (hacc : ones j ≤ acc) :
    (unpackLoop m acc j queue).taken ≤ 11 ∧
      ((unpackLoop m acc j queue).how ≠ .overflow → (unpackLoop m acc j queue).taken ≤ 10) := by
  fun_induction unpackLoop m acc j queue with
  | case1 acc j => exact ⟨Nat.le_succ_of_le hj, fun _ => hj⟩
  | case2 acc j b rest acc' hover => exact ⟨Nat.succ_le_succ hj, fun h => absurd rfl h⟩
  | case3 acc j b rest acc' hfit hterm =>
    have hlt : j < 10 := lt_ten_of_fits hj hacc hfit
    exact ⟨Nat.succ_le_succ hj, fun _ => hlt⟩
  | case4 acc j b rest acc' hfit hterm ih =>
    have hlt : j < 10 := lt_ten_of_fits hj hacc hfit
    have hdigit : 128 ^ j ≤ (b.toNat % 128 + 1) * 128 ^ j := Nat.le_mul_of_pos_left _ (Nat.succ_pos _)
    exact ih hlt (Nat.add_le_add hacc hdigit)

/-- R53, R135: one decode takes at most 11 bytes from the head of the queue, at most 10 of them without overflow, and at
least one unless the data run out. -/
theorem vlqUnpack_takes_head (m : Word) (queue : List Byte) :
    ∃ bytes, queue = bytes ++ (vlqUnpack m queue).rest ∧ (vlqUnpack m queue).taken = bytes.length ∧
      bytes.length ≤ 11 ∧ ((vlqUnpack m queue).how ≠ .overflow → bytes.length ≤ 10) ∧
      ((vlqUnpack m queue).how ≠ .insufficientData → 1 ≤ bytes.length) := by
  obtain ⟨bytes, hq, htaken, hne⟩ := unpackLoop_takes_head m.toNat 0 0 queue
  have hle := unpackLoop_taken_le m.toNat 0 0 queue (by omega) (Nat.le_refl 0)
  rw [Nat.zero_add] at htaken
  rw [htaken] at hle
  exact ⟨bytes, hq, htaken, hle.1, hle.2, fun h => List.length_pos_iff.mpr (hne h)⟩

/-! ### Legal outcomes (R27, R181) -/

theorem toNat_ofNat_four {n : Nat} (hn : n ≤ 11) : (BitVec.ofNat 4 n).toNat = n := by
  rw [BitVec.toNat_ofNat, Nat.mod_eq_of_lt (by omega)]

theorem succeed_outcomeLegal {n : Nat} (hn : n ≤ 10) (s : State) : (succeed n s).OutcomeLegal :=
  .inl ⟨rfl, by rw [succeed_nbytes, toNat_ofNat_four (by omega)]; exact hn⟩

/-- R182, R113, R162, R164: the errors that move no byte. -/
theorem raiseError_zero_outcomeLegal {e : Err} (he : e = .precondition ∨ e = .misuse ∨ e = .illegalCommand) (s : State) :
    (raiseError e 0 s).OutcomeLegal := by
  refine .inr (.inr (.inr ⟨?_, rfl⟩))
  rcases he with rfl | rfl | rfl
  · exact .inl rfl
  · exact .inr (.inl rfl)
  · exact .inr (.inr rfl)

theorem raiseError_insufficientData_outcomeLegal {n : Nat} (hn : n ≤ 10) (s : State) :
    (raiseError .insufficientData n s).OutcomeLegal :=
  .inr (.inl ⟨rfl, by rw [raiseError_nbytes, toNat_ofNat_four (by omega)]; exact hn⟩)

theorem raiseError_overflow_outcomeLegal {n : Nat} (hpos : 1 ≤ n) (hn : n ≤ 11) (s : State) :
    (raiseError .overflow n s).OutcomeLegal :=
  .inr (.inr (.inl ⟨rfl, by rw [raiseError_nbytes, toNat_ofNat_four hn]; exact ⟨hpos, hn⟩⟩))

/-- R30: every legal outcome has ERR at most 5 and NBYTES at most 11. -/
theorem State.OutcomeLegal.statusLegal {s : State} (h : s.OutcomeLegal) : s.StatusLegal := by
  rcases h with ⟨herr, hn⟩ | ⟨herr, hn⟩ | ⟨herr, -, hn⟩ | ⟨herr, hn⟩
  · exact ⟨by rw [herr]; decide, by omega⟩
  · exact ⟨by rw [herr]; decide, by omega⟩
  · exact ⟨by rw [herr]; decide, hn⟩
  · exact ⟨by rcases herr with herr | herr | herr <;> rw [herr] <;> decide, by rw [hn]; decide⟩

/-! ### The two codec bodies -/

theorem encodeValue_outcomeLegal (v : Word) (s : State) : (encodeValue v s).OutcomeLegal := by
  rcases encodeValue_cases v s with ⟨-, h⟩ | ⟨-, -, h⟩ | ⟨-, -, h⟩ <;> rw [h]
  · exact raiseError_zero_outcomeLegal (.inr (.inl rfl)) s
  · exact raiseError_zero_outcomeLegal (.inl rfl) s
  · exact succeed_outcomeLegal (length_vlqPack_le _) _

theorem decodeValue_outcomeLegal (post : Word → Word) (s : State) : (decodeValue post s).OutcomeLegal := by
  obtain ⟨bytes, -, htaken, hle, hfit, hpos⟩ := vlqUnpack_takes_head s.decBase s.source
  rcases decodeValue_cases post s with ⟨-, h⟩ | ⟨-, hhow, h⟩ | ⟨-, hhow, h⟩ | ⟨-, v, hhow, h⟩ <;> rw [h]
  · exact raiseError_zero_outcomeLegal (.inr (.inl rfl)) s
  · exact raiseError_insufficientData_outcomeLegal (htaken ▸ hfit (by simp [hhow])) _
  · exact raiseError_overflow_outcomeLegal (htaken ▸ hpos (by simp [hhow])) (htaken ▸ hle) _
  · exact succeed_outcomeLegal (htaken ▸ hfit (by simp [hhow])) _

/-- R113, R150: an encode command changes the sink and the outcome only. -/
theorem encodeValue_frame (v : Word) (s : State) :
    encodeValue v s =
      { s with
        sinkLog := (encodeValue v s).sinkLog
        err := (encodeValue v s).err
        nbytes := (encodeValue v s).nbytes } := by
  rcases encodeValue_cases v s with ⟨-, h⟩ | ⟨-, -, h⟩ | ⟨-, -, h⟩ <;> rw [h] <;> rfl

/-- R134, R151: a decode command changes RESULT, the source and the outcome only. -/
theorem decodeValue_frame (post : Word → Word) (s : State) :
    decodeValue post s =
      { s with
        result := (decodeValue post s).result
        source := (decodeValue post s).source
        err := (decodeValue post s).err
        nbytes := (decodeValue post s).nbytes } := by
  rcases decodeValue_cases post s with ⟨-, h⟩ | ⟨-, -, h⟩ | ⟨-, -, h⟩ | ⟨-, v, -, h⟩ <;> rw [h] <;> rfl

/-- R54, R27: the sink grows by the bytes NBYTES counts, and by none on an error. -/
theorem encodeValue_appends (v : Word) (s : State) :
    ∃ events, (encodeValue v s).sinkLog = s.sinkLog ++ events ∧ events.length ≤ 10 ∧
      (events ≠ [] → (encodeValue v s).err = 0#4) ∧ events.length = (encodeValue v s).nbytes.toNat := by
  rcases encodeValue_cases v s with ⟨-, h⟩ | ⟨-, -, h⟩ | ⟨-, -, h⟩ <;> rw [h]
  · exact ⟨[], by simp⟩
  · exact ⟨[], by simp⟩
  · have hle := length_vlqPack_le (v - s.encBase)
    exact ⟨(vlqPack (v - s.encBase)).map .append, rfl, by rwa [List.length_map], fun _ => rfl,
      by rw [List.length_map, succeed_nbytes, toNat_ofNat_four (by omega)]⟩

/-- R53, R27: the source loses at its head the bytes NBYTES counts. -/
theorem decodeValue_takes_head (post : Word → Word) (s : State) :
    ∃ bytes, s.source = bytes ++ (decodeValue post s).source ∧ bytes.length ≤ 11 ∧
      bytes.length = (decodeValue post s).nbytes.toNat := by
  obtain ⟨bytes, hq, htaken, hle, -⟩ := vlqUnpack_takes_head s.decBase s.source
  rcases decodeValue_cases post s with ⟨-, h⟩ | ⟨-, -, h⟩ | ⟨-, -, h⟩ | ⟨-, v, -, h⟩ <;> rw [h]
  · exact ⟨[], by simp⟩
  all_goals exact ⟨bytes, hq, hle, by rw [htaken]; exact (toNat_ofNat_four hle).symm⟩

/-! ### Commands -/

/-- R180, R181: every command ends in an outcome of R181's table. -/
theorem exec_outcomeLegal {i : Instr} {s t : State} (h : exec i s = .next t) : t.OutcomeLegal := by
  rw [exec_eq_next] at h
  injection h with h
  subst h
  cases i
  case uenc | senc => exact encodeValue_outcomeLegal _ s
  case udec | sdec => exact decodeValue_outcomeLegal _ s
  case encClose | decClose =>
    dsimp only
    split
    · exact succeed_outcomeLegal (Nat.zero_le _) _
    · exact raiseError_zero_outcomeLegal (.inr (.inl rfl)) s
  all_goals exact succeed_outcomeLegal (Nat.zero_le _) _

/-- Settles O37, by the frame of each command. -/
theorem onlyChannelCommandsChangeTheChannels : Obligations.OnlyChannelCommandsChangeTheChannels := by
  intro i s t h
  rw [exec_eq_next] at h
  injection h with h
  subst h
  cases i
  case uenc | senc => dsimp only; rw [encodeValue_frame]; simp
  case udec | sdec => dsimp only; rw [decodeValue_frame]; simp
  case encClose | decClose => dsimp only; split <;> simp
  all_goals simp

theorem runCommand_of_ok {c : Word} {i : Instr} (h : decode c = .ok i) (s : State) : runCommand c s = exec i s := by
  rw [runCommand, h]

theorem runCommand_of_error {c : Word} {e : DecodeError} (h : decode c = .error e) (s : State) :
    runCommand c s = .next (raiseError .illegalCommand 0 s) := by
  rw [runCommand, h]

/-- R180, R182: whatever is written to CMD, the outcome is legal and the host's moves stay. -/
theorem runCommand_next {c : Word} {s t : State} (h : runCommand c s = .next t) : t.OutcomeLegal ∧ t.moves = s.moves := by
  cases hc : decode c with
  | ok i =>
    rw [runCommand_of_ok hc] at h
    obtain ⟨-, -, -, -, -, hmoves, -⟩ := onlyChannelCommandsChangeTheChannels i s t h
    exact ⟨exec_outcomeLegal h, hmoves⟩
  | error e =>
    rw [runCommand_of_error hc] at h
    injection h with h
    subst h
    exact ⟨raiseError_zero_outcomeLegal (.inr (.inr rfl)) s, rfl⟩

/-- Settles O35: the first half bit by bit, the second because every command's outcome is one of R181's table. -/
theorem reservedStatusValuesAreNeverWritten : Obligations.ReservedStatusValuesAreNeverWritten :=
  ⟨statusWord_shiftRight_ten, fun _ _ _ h => (runCommand_next h).1.statusLegal⟩

/-- Settles O36, bit by bit. -/
theorem statusFieldsStandInTheirBits : Obligations.StatusFieldsStandInTheirBits := by
  intro s
  refine ⟨?_, ?_, by rw [statusWord_getLsbD]; rfl, by rw [statusWord_getLsbD]; exact Bool.true_and _, ?_⟩
  · refine BitVec.eq_of_getLsbD_eq fun i hi => ?_
    rw [BitVec.getLsbD_extractLsb', Nat.zero_add, statusWord_getLsbD, if_pos hi, decide_eq_true hi, Bool.true_and]
  · refine BitVec.eq_of_getLsbD_eq fun i hi => ?_
    rw [BitVec.getLsbD_extractLsb', statusWord_getLsbD_nbytes s hi, decide_eq_true hi, Bool.true_and]
  · refine BitVec.eq_of_getLsbD_eq fun i _ => ?_
    rw [BitVec.getLsbD_extractLsb', statusWord_getLsbD_high s (by omega), Bool.and_false, BitVec.getLsbD_zero]

/-! ### The streams -/

/-- R36, R54: what a command does to the sink. -/
theorem exec_appends {i : Instr} {s t : State} (h : exec i s = .next t) :
    ∃ events, t.sinkLog = s.sinkLog ++ events ∧ events.length ≤ 10 ∧
      (events ≠ [] → (i = .uenc ∨ i = .senc ∨ i = .encClose) ∧ t.err = 0#4) ∧
      (i = .uenc ∨ i = .senc → events.length = t.nbytes.toNat) := by
  rw [exec_eq_next] at h
  injection h with h
  subst h
  cases i
  case uenc | senc =>
    exact (encodeValue_appends _ s).imp fun events ⟨hlog, hle, herr, hn⟩ =>
      ⟨hlog, hle, fun hne => ⟨by simp, herr hne⟩, fun _ => hn⟩
  case udec | sdec => exact ⟨[], by dsimp only; rw [decodeValue_frame]; simp⟩
  case encClose =>
    dsimp only
    split
    · exact ⟨[.close], by simp⟩
    · exact ⟨[], by simp⟩
  case decClose => exact ⟨[], by dsimp only; split <;> simp⟩
  all_goals exact ⟨[], by simp⟩

/-- R35, R53: what a command does to the source. -/
theorem exec_takes_head {i : Instr} {s t : State} (h : exec i s = .next t) :
    ∃ bytes, s.source = bytes ++ t.source ∧ bytes.length ≤ 11 ∧ (bytes ≠ [] → i = .udec ∨ i = .sdec) ∧
      (i = .udec ∨ i = .sdec → bytes.length = t.nbytes.toNat) := by
  rw [exec_eq_next] at h
  injection h with h
  subst h
  cases i
  case udec | sdec =>
    exact (decodeValue_takes_head _ s).imp fun bytes ⟨hsource, hle, hn⟩ => ⟨hsource, hle, by simp, fun _ => hn⟩
  case uenc | senc => exact ⟨[], by dsimp only; rw [encodeValue_frame]; simp⟩
  case encClose | decClose => exact ⟨[], by dsimp only; split <;> simp⟩
  all_goals exact ⟨[], by simp⟩

/-- R27: a command that is none of the codecs' reports no byte moved. -/
theorem exec_nbytes_zero {i : Instr} {s t : State} (h : exec i s = .next t)
    (hi : ¬(i = .uenc ∨ i = .senc ∨ i = .udec ∨ i = .sdec)) : t.nbytes = 0#4 := by
  rw [exec_eq_next] at h
  injection h with h
  subst h
  cases i
  case uenc | senc | udec | sdec => simp at hi
  case encClose | decClose => dsimp only; split <;> rfl
  all_goals rfl

/-- Settles O39, one stream at a time. -/
theorem streamsMoveOnlyTheBytesCounted : Obligations.StreamsMoveOnlyTheBytesCounted :=
  fun _ _ _ h => ⟨exec_appends h, exec_takes_head h, exec_nbytes_zero h⟩

/-! ### One step -/

theorem step_of_moves {s : State} {m : HostMove} {rest : List HostMove} (h : s.moves = m :: rest) :
    step s = runMove m { s with moves := rest } := by
  rw [step, popMove, h, List.tail_cons]

/-- R31: an aligned 64-bit write at offset 0 is a write to CMD. -/
theorem hostStore_cmd (c : Word) (s : State) : hostStore 0x00 8 c s = runCommand c s := rfl

/-- Settles O4: the step is a write to CMD, which runs what the decoder answers. -/
theorem stepRunsTheDecodedCommand : Obligations.StepRunsTheDecodedCommand := by
  intro s c rest hmoves
  have hstep : step s = runCommand c { s with moves := rest } := (step_of_moves hmoves).trans (hostStore_cmd c _)
  exact ⟨fun i hc => hstep.trans (runCommand_of_ok hc _), fun e hc => hstep.trans (runCommand_of_error hc _)⟩

/-! ### The invariant: a legal outcome, and every pending access in the window -/

/-- The invariant looks at the outcome and the pending moves only. -/
theorem State.Good.congr {s t : State} (h : s.Good) (herr : t.err = s.err) (hnbytes : t.nbytes = s.nbytes)
    (hmoves : t.moves = s.moves) : t.Good := by
  unfold State.Good State.OutcomeLegal State.MovesInWindow
  rw [herr, hnbytes, hmoves]
  exact h

/-- An operation that ends in a legal outcome and leaves the host's moves alone. -/
theorem State.Good.of_outcomeLegal {s t : State} (h : s.Good) (hout : t.OutcomeLegal) (hmoves : t.moves = s.moves) :
    t.Good :=
  ⟨hout, fun m hm => h.2 m (hmoves ▸ hm)⟩

theorem State.Good.prependMoves {s : State} (h : s.Good) {ms : List HostMove} (hms : ∀ m ∈ ms, moveInWindow m = true) :
    (prependMoves ms s).Good :=
  ⟨h.1, fun m hm => (List.mem_append.mp hm).elim (hms m) (h.2 m)⟩

/-- R82, R83: the accesses a program's statement stands for are to registers, so in the window. -/
theorem moveInWindow_of_mem_expand (x : Stmt) : ∀ m ∈ expand x, moveInWindow m = true := by
  have hstore (r : Reg) (v : Word) : moveInWindow (storeTo r v) = true := by cases r <;> rfl
  have hload (r : Reg) : moveInWindow (loadFrom r) = true := by cases r <;> rfl
  cases x with
  | cmd i operand => cases operand <;> simp [expand, hstore]
  | st r v => simp [expand, hstore]
  | ld r => simp [expand, hload]
  | bulkEnc vs => simp [expand, moveInWindow]
  | bulkDec => simp [expand, moveInWindow]

/-- R51: a read that answers only adds to the host's record. -/
theorem hostLoad_next {off width : Nat} {s t : State} (h : hostLoad off width s = .next t) :
    ∃ value, t = recordLoad off value s := by
  rcases hostLoad_cases off width s with ⟨-, hl⟩ | ⟨-, -, hl⟩ | ⟨-, -, -, hl⟩ | ⟨-, -, hl⟩ <;> rw [hl] at h
  · cases h
  · injection h with h
    exact ⟨_, h.symm⟩
  · cases h
  · injection h with h
    exact ⟨_, h.symm⟩

theorem hostLoad_keeps_good {off width : Nat} {s t : State} (hs : s.Good) (h : hostLoad off width s = .next t) :
    t.Good := by
  obtain ⟨value, rfl⟩ := hostLoad_next h
  exact hs.congr rfl rfl rfl

theorem runCommand_keeps_good {c : Word} {s t : State} (hs : s.Good) (h : runCommand c s = .next t) : t.Good :=
  hs.of_outcomeLegal (runCommand_next h).1 (runCommand_next h).2

theorem hostStore_keeps_good {off width : Nat} {data : Word} {s t : State} (hs : s.Good)
    (h : hostStore off width data s = .next t) : t.Good := by
  rcases hostStore_cases off width data s with ⟨-, hst⟩ | ⟨-, -, hst⟩ | ⟨-, -, hst⟩ | ⟨-, -, hst⟩ <;> rw [hst] at h
  · cases h
  · injection h with h
    exact h ▸ hs
  · exact runCommand_keeps_good hs h
  · injection h with h
    rw [← h, writeReg_eq]
    exact hs.congr rfl rfl rfl

/-- R200: reset leaves STATUS without error. -/
theorem resetRegisters_keeps_good {s : State} (hs : s.Good) : (resetRegisters s).Good :=
  hs.of_outcomeLegal (.inl ⟨rfl, Nat.zero_le _⟩) rfl

/-- 93 U1: a reset that cuts a command short leaves the registers a reset leaves, wherever it cuts. -/
theorem resetDuringCommand_keeps_good {c : Word} {s t : State} (hs : s.Good) (h : resetDuringCommand c s = .next t) :
    t.Good := by
  unfold resetDuringCommand at h
  split at h
  · injection h with h
    subst h
    exact (resetRegisters_keeps_good hs).congr rfl rfl rfl
  · cases h
  · cases h

theorem bulkEncTurn_keeps_good (values : List Word) {s : State} (hs : s.Good) : (bulkEncTurn values s).Good := by
  cases values with
  | nil => exact hs
  | cons v vs =>
    refine hs.prependMoves fun m hm => ?_
    rcases List.mem_append.mp hm with hm | hm
    · exact moveInWindow_of_mem_expand _ m hm
    · rw [List.mem_singleton.mp hm]; rfl

theorem bulkDecTurn_keeps_good (got : List Word) {s : State} (hs : s.Good) : (bulkDecTurn got s).Good := by
  refine hs.prependMoves fun m hm => ?_
  rcases List.mem_append.mp hm with hm | hm
  · exact moveInWindow_of_mem_expand _ m hm
  · rw [List.mem_singleton.mp hm]; rfl

theorem bulkEncCheck_keeps_good {values : List Word} {s t : State} (hs : s.Good) (h : bulkEncCheck values s = .next t) :
    t.Good := by
  unfold bulkEncCheck at h
  split at h
  next u hload =>
    have hu : u.Good := hostLoad_keeps_good hs hload
    split at h <;> injection h with h <;> subst h
    · exact hu.prependMoves (by simp [moveInWindow])
    · exact hu
  all_goals cases h

theorem bulkDecCheck_keeps_good {got : List Word} {s t : State} (hs : s.Good) (h : bulkDecCheck got s = .next t) :
    t.Good := by
  unfold bulkDecCheck at h
  split at h
  next u hstatus =>
    split at h
    next w hresult =>
      have hw : w.Good := hostLoad_keeps_good (hostLoad_keeps_good hs hstatus) hresult
      split at h <;> injection h with h <;> subst h
      · exact hw.prependMoves (by simp [moveInWindow])
      · exact hw.congr rfl rfl rfl
    all_goals cases h
  all_goals cases h

/-- Every move of the host keeps the invariant. -/
theorem runMove_keeps_good {m : HostMove} {s t : State} (hs : s.Good) (h : runMove m s = .next t) : t.Good := by
  cases m with
  | store off width data => exact hostStore_keeps_good hs h
  | load off width => exact hostLoad_keeps_good hs h
  | resetDuring c => exact resetDuringCommand_keeps_good hs h
  | bulkEncCheck values => exact bulkEncCheck_keeps_good hs h
  | bulkDecCheck got => exact bulkDecCheck_keeps_good hs h
  | feed bytes => cases h; exact hs.congr rfl rfl rfl
  | readSink => cases h; exact hs.congr rfl rfl rfl
  | reset => cases h; exact resetRegisters_keeps_good hs
  | bulkEnc values => cases h; exact bulkEncTurn_keeps_good values hs
  | bulkDec got => cases h; exact bulkDecTurn_keeps_good got hs

/-- Settles O46, by the move the step makes. -/
theorem everyStepKeepsAGoodState : Obligations.EveryStepKeepsAGoodState := by
  intro s t hs h
  cases hmoves : s.moves with
  | nil =>
    rw [step, hmoves] at h
    injection h with h
    exact h ▸ hs
  | cons m rest =>
    rw [step_of_moves hmoves] at h
    have hrest : State.Good { s with moves := rest } :=
      ⟨hs.1, fun m' hm' => hs.2 m' (hmoves ▸ List.mem_cons_of_mem m hm')⟩
    exact runMove_keeps_good hrest h

end Sys2Proof.Machine

/-! # Settling the statements about the register window and the host's moves (20_memory.md)

First what a write and a read do at an offset inside the window and at one past its end. Then the obligations: each is
`step_of_moves`, which turns the step into the host's move, followed by what that move does. -/

namespace Sys2Proof.Machine

/-! ### Accesses inside the window (R51) -/

/-- R51: an access is defined only when it is 64 bits wide. -/
theorem width_eq_of_definedAccess {off width : Nat} (h : definedAccess off width = true) : width = 8 := by
  simp only [definedAccess, Bool.and_eq_true, beq_iff_eq] at h
  exact h.1.1

/-- R51: the registers stand at the defined offsets, so a 64-bit write at any other offset would store nothing. -/
theorem writeReg_of_not_definedAccess {off : Nat} (h : definedAccess off 8 = false) (data : Word) (s : State) :
    writeReg off data s = s := by
  unfold writeReg
  split
  · exact absurd h (by decide)
  · rfl

/-- R51: the registers stand at the defined offsets, so a 64-bit read at any other offset returns 0. -/
theorem readReg_of_not_definedAccess {off : Nat} (h : definedAccess off 8 = false) (s : State) :
    readReg off s = 0#64 := by
  unfold readReg
  split
  case h_6 => rfl
  all_goals exact absurd h (by decide)

/-- R21, R34: the table of registers. -/
theorem readReg_eq (off : Nat) (s : State) :
    readReg off s =
      if off = 0x08 then s.operand else if off = 0x10 then s.result
      else if off = 0x18 then statusWord s else if off = 0x20 then s.encBase
      else if off = 0x28 then s.decBase else 0#64 := by
  unfold readReg
  split
  case h_6 h8 h10 h18 h20 h28 => rw [if_neg h8, if_neg h10, if_neg h18, if_neg h20, if_neg h28]
  all_goals rfl

/-- R51, R21: a write in the window that is no command stores what `writeReg` stores if it is 64 bits wide, and nothing
otherwise. -/
theorem hostStore_of_not_cmd {off width : Nat} (hoff : off < 0x40) (hcmd : ¬(off = 0 ∧ width = 8)) (data : Word)
    (s : State) : hostStore off width data s = .next (if width = 8 then writeReg off data s else s) := by
  rcases hostStore_cases off width data s with ⟨hout, -⟩ | ⟨-, hodd, h⟩ | ⟨h0, h8, -⟩ | ⟨-, hdef, h⟩
  · exact absurd hoff (Nat.not_lt.mpr hout)
  · rw [h]
    split
    next h8 => subst h8; rw [writeReg_of_not_definedAccess hodd]
    next => rfl
  · exact absurd ⟨h0, h8⟩ hcmd
  · rw [h, if_pos (width_eq_of_definedAccess hdef)]

/-- R51, R21: a read in the window returns what `readReg` returns if it is 64 bits wide, and 0 otherwise. -/
theorem hostLoad_of_lt {off width : Nat} (hoff : off < 0x40) (s : State)
    (hlegal : off = 0x18 → width = 8 → s.StatusLegal) :
    hostLoad off width s = .next (recordLoad off (if width = 8 then readReg off s else 0#64) s) := by
  rcases hostLoad_cases off width s with ⟨hout, -⟩ | ⟨-, hodd, h⟩ | ⟨hdef, h18, hillegal, -⟩ | ⟨hdef, -, h⟩
  · exact absurd hoff (Nat.not_lt.mpr hout)
  · rw [h]
    split
    next h8 => subst h8; rw [readReg_of_not_definedAccess hodd]
    next => rfl
  · exact absurd (hlegal h18 (width_eq_of_definedAccess hdef)) hillegal
  · rw [h, if_pos (width_eq_of_definedAccess hdef)]

/-! ### Accesses past the end of the window (R50, log 5) -/

theorem not_inWindow_of_ge {off : Nat} (hoff : 0x40 ≤ off) : ¬inWindow off = true :=
  mt (inWindow_iff off).mp (Nat.not_lt.mpr hoff)

theorem hostStore_of_ge {off : Nat} (hoff : 0x40 ≤ off) (width : Nat) (data : Word) (s : State) :
    hostStore off width data s = .fault .outsideWindow :=
  if_neg (not_inWindow_of_ge hoff)

theorem hostLoad_of_ge {off : Nat} (hoff : 0x40 ≤ off) (width : Nat) (s : State) :
    hostLoad off width s = .fault .outsideWindow :=
  if_neg (not_inWindow_of_ge hoff)

/-! ### The obligations -/

/-- Settles O40: the write to CMD, the other writes by `writeReg`'s one register, the reads by the table of `readReg`. -/
theorem windowAccessesFollowTheTable : Obligations.WindowAccessesFollowTheTable := by
  intro s off width rest hoff
  refine ⟨fun data hmoves h0 h8 => ?_, fun data hmoves hcmd => ?_, fun hmoves hlegal => ?_⟩
  · subst h0 h8
    exact (step_of_moves hmoves).trans (hostStore_cmd data _)
  · refine (step_of_moves hmoves).trans ((hostStore_of_not_cmd hoff hcmd data _).trans ?_)
    by_cases h8 : width = 8
    · simp [h8, writeReg_eq]
    · simp [h8]
  · refine (step_of_moves hmoves).trans ((hostLoad_of_lt hoff { s with moves := rest } hlegal).trans ?_)
    rw [readReg_eq]
    rfl

/-- Settles O42: both accesses start past the window's end. -/
theorem accessOutsideTheWindowFaults : Obligations.AccessOutsideTheWindowFaults :=
  fun _ _ width _ hoff =>
    ⟨fun data hmoves => (step_of_moves hmoves).trans (hostStore_of_ge hoff width data _),
      fun hmoves => (step_of_moves hmoves).trans (hostLoad_of_ge hoff width _)⟩

/-- Settles O43: both moves are an update of the state each, done by the step that makes the move. -/
theorem hostStreamMovesAddAndRead : Obligations.HostStreamMovesAddAndRead :=
  fun _ _ => ⟨fun _ hmoves => step_of_moves hmoves, fun hmoves => step_of_moves hmoves⟩

end Sys2Proof.Machine

/-! # Settling the statements about the encoding (30_encoding.md)

First the command words: the two fields of a word, which opcodes are assigned, what the decoder answers. Then the wire
format: a terminal byte and a continuation byte, the tiers, the magnitude that a string of bytes denotes read from its
least significant end, and with these that packing and unpacking are each other's inverse on framed sequences. -/

namespace Sys2Proof.Machine

/-! ### Command words (R78, R80, R81) -/

theorem toNat_opc (c : Word) : (opc c).toNat = c.toNat % 256 := by
  simp [opc]

theorem toNat_rsv (c : Word) : (rsv c).toNat = c.toNat / 256 := by
  have hlt := c.isLt
  rw [rsv, BitVec.extractLsb'_toNat, Nat.shiftRight_eq_div_pow]
  omega

theorem rsv_eq_zero_iff (c : Word) : rsv c = 0#56 ↔ c.toNat / 256 = 0 := by
  rw [BitVec.toNat_eq, toNat_rsv, BitVec.toNat_ofNat, Nat.zero_mod]

/-- R78: a word is its two fields. -/
theorem fields_eq_iff (c : Word) (o : BitVec 8) : rsv c = 0#56 ∧ opc c = o ↔ c = o.setWidth 64 := by
  have ho := o.isLt
  rw [rsv_eq_zero_iff, BitVec.toNat_eq, toNat_opc, BitVec.toNat_eq, BitVec.toNat_setWidth]
  omega

/-- Settles O1: the opcode map has one opcode per command, and a word is its two fields. -/
theorem decodeInvertsEncodeOnEveryWord : Obligations.DecodeInvertsEncodeOnEveryWord :=
  fun c i => (decode_ok_iff_fields c i).trans (fields_eq_iff c (opcodeOf i))

theorem decode_encode (i : Instr) : decode (encode i) = .ok i := (decodeInvertsEncodeOnEveryWord _ i).mpr rfl

/-- Settles O2: each word of the table is the one the encoder writes. -/
theorem opcodeMapWordsDecode : Obligations.OpcodeMapWordsDecode :=
  ⟨decode_encode .nop, decode_encode .zzenc, decode_encode .zzdec, decode_encode .uenc, decode_encode .senc,
    decode_encode .udec, decode_encode .sdec, decode_encode .encOpen, decode_encode .encClose, decode_encode .decOpen,
    decode_encode .decClose⟩

/-- R80 against R81: of the 256 opcodes, the table assigns exactly those that no reserved range holds. -/
theorem instrOfOpcode_isSome : ∀ o : BitVec 8, (instrOfOpcode o).isSome = !opcReserved o.toNat := by decide

/-- R81: the words that decode are those the list of reserved opcodes leaves legal. -/
theorem exists_decode_ok_iff (c : Word) : (∃ i, decode c = .ok i) ↔ legalWord c = true := by
  simp only [decode_ok_iff_fields, ← instrOfOpcode_eq_some_iff, exists_and_left, ← Option.isSome_iff_exists,
    instrOfOpcode_isSome, rsv_eq_zero_iff, toNat_opc, legalWord, rsvClear, Bool.and_eq_true, beq_iff_eq]

theorem legalWord_iff (c : Word) :
    legalWord c = true ↔
      ¬(c.toNat / 256 ≠ 0 ∨ (0x03 ≤ c.toNat % 256 ∧ c.toNat % 256 ≤ 0x0F) ∨ (0x12 ≤ c.toNat % 256 ∧ c.toNat % 256 ≤ 0x1F) ∨
        (0x22 ≤ c.toNat % 256 ∧ c.toNat % 256 ≤ 0x2F) ∨ (0x32 ≤ c.toNat % 256 ∧ c.toNat % 256 ≤ 0x37) ∨
        0x3A ≤ c.toNat % 256) := by
  simp only [legalWord, rsvClear, opcReserved, Bool.and_eq_true, Bool.not_eq_true', Bool.or_eq_false_iff,
    Bool.and_eq_false_iff, beq_iff_eq, decide_eq_false_iff_not]
  omega

/-- Settles O3: the decoder's table against R81's ranges; a word without a command raises ILLEGAL_COMMAND. -/
theorem illegalWordsReportAndDoNothingElse : Obligations.IllegalWordsReportAndDoNothingElse := by
  intro c s
  refine ⟨(exists_decode_ok_iff c).trans (legalWord_iff c), fun hillegal => ?_⟩
  cases hc : decode c with
  | ok i => exact absurd ⟨i, hc⟩ hillegal
  | error e => exact runCommand_of_error hc s

/-! ### Words and statements of the host as its next moves (R78, R83, log 1) -/

theorem decodeTableWord_eq_some_iff (nbits w : Nat) (i : Instr) :
    decodeTableWord nbits w = some i ↔ decode (tableWord nbits w) = .ok i := by
  unfold decodeTableWord
  cases decode (tableWord nbits w) <;> simp

/-- Settles O5: the placed word is the host's next move, a write to CMD. -/
theorem placedWordRunsNext : Obligations.PlacedWordRunsNext := by
  intro s nbits w i hw
  exact (stepRunsTheDecodedCommand (s.withFetchWord nbits w) _ s.moves rfl).1 i
    ((decodeTableWord_eq_some_iff nbits w i).mp hw)

/-- R82: a store to OPERAND, as the host's next move. -/
theorem step_storeTo_operand {s : State} {v : Word} {rest : List HostMove} (h : s.moves = storeTo .operand v :: rest) :
    step s = .next { s with operand := v, moves := rest } :=
  step_of_moves h

/-- R82: a command without operand, as the host's next move. -/
theorem step_storeTo_cmd {s : State} {i : Instr} {rest : List HostMove}
    (h : s.moves = storeTo .cmd (encode i) :: rest) : step s = exec i { s with moves := rest } :=
  (stepRunsTheDecodedCommand s (encode i) rest h).1 i (decode_encode i)

/-- Settles O7, one store of the expansion at a time. -/
theorem pseudoInstructionRunsItsCommand : Obligations.PseudoInstructionRunsItsCommand :=
  fun _ _ _ _ hmoves => ⟨_, step_storeTo_operand hmoves, rfl, step_storeTo_cmd rfl⟩

/-! ### Bytes on the wire (R70) -/

/-- R70: the terminal flag is the byte's most significant bit. -/
theorem bit_seven_eq (b : Byte) : bit b 7 = decide (128 ≤ b.toNat) := BitVec.msb_eq_decide b

/-- R70, R110: a terminal byte is its flag and its digit. -/
theorem terminalByte_eq_iff (x : Nat) (b : Byte) :
    setbit (BitVec.ofNat 8 (x % 128)) 7 = b ↔ bit b 7 = true ∧ b.toNat % 128 = x % 128 := by
  have hdigit := Nat.mod_lt x (y := 128) (by decide)
  have hor : 128 ||| x % 128 = 128 + x % 128 := (Nat.two_pow_add_eq_or_of_lt (i := 7) hdigit 1).symm
  have hset : (setbit (BitVec.ofNat 8 (x % 128)) 7).toNat = 128 + x % 128 := by
    rw [← hor, Nat.or_comm, setbit, BitVec.toNat_or, BitVec.toNat_ofNat, Nat.mod_eq_of_lt (by omega)]
    rfl
  have hb := b.isLt
  rw [BitVec.toNat_eq, hset, bit_seven_eq, decide_eq_true_eq]
  omega

/-- R70, R110: a byte before the last is its clear flag and its digit. -/
theorem continuationByte_eq_iff (x : Nat) (b : Byte) :
    BitVec.ofNat 8 (x % 128) = b ↔ bit b 7 = false ∧ b.toNat % 128 = x % 128 := by
  have hb := b.isLt
  rw [BitVec.toNat_eq, BitVec.toNat_ofNat, bit_seven_eq, decide_eq_false_iff_not]
  omega

theorem framed_cons (b : Byte) {rest : List Byte} (hrest : rest ≠ []) :
    framed (b :: rest) = (!bit b 7 && framed rest) := by
  cases rest with
  | nil => exact absurd rfl hrest
  | cons c cs => rfl

theorem ne_nil_of_framed {bytes : List Byte} (h : framed bytes = true) : bytes ≠ [] := by
  rintro rfl
  cases h

/-! ### The tiers (R71, R72) -/

theorem tierStart_add_pow {n : Nat} (hn : 1 ≤ n) : tierStart (n + 1) = tierStart n + 128 ^ n := by
  obtain ⟨k, rfl⟩ := Nat.exists_eq_add_of_le' hn
  rfl

theorem tierStart_monotone : Monotone tierStart :=
  monotone_nat_of_le_succ fun n => by
    cases n with
    | zero => exact Nat.le_refl 0
    | succ k => exact Nat.le_add_right _ _

/-- R72: a larger magnitude lies in no earlier tier. -/
theorem tier_le_of_le {x y k n : Nat} (hxy : x ≤ y) (hk : tierStart k ≤ x) (hn : y < tierStart (n + 1)) : k ≤ n :=
  Nat.le_of_lt_succ (tierStart_monotone.reflect_lt (hk.trans_lt (hxy.trans_lt hn)))

theorem digitSum_lt (bytes : List Byte) : digitSum bytes < 128 ^ bytes.length := by
  induction bytes with
  | nil => exact Nat.one_pos
  | cons b rest ih =>
    rw [digitSum, List.length_cons, Nat.pow_succ]
    omega

/-- R72: a string of n bytes denotes a magnitude of the n-byte tier. -/
theorem localMagnitude_mem_tier {bytes : List Byte} (h : bytes ≠ []) :
    tierStart bytes.length ≤ localMagnitude bytes ∧ localMagnitude bytes < tierStart (bytes.length + 1) := by
  have hdigits := digitSum_lt bytes
  rw [tierStart_add_pow (List.length_pos_iff.mpr h), localMagnitude]
  omega

/-! ### The magnitude that bytes denote, from the least significant end (R74) -/

theorem localMagnitude_singleton (b : Byte) : localMagnitude [b] = b.toNat % 128 := by
  simp [localMagnitude, tierStart, digitSum]

/-- R110's pass read backwards. -/
theorem localMagnitude_cons (b : Byte) {rest : List Byte} (hrest : rest ≠ []) :
    localMagnitude (b :: rest) = b.toNat % 128 + 128 * (localMagnitude rest + 1) := by
  have hones : 1 ≤ ones rest.length := by
    obtain ⟨c, cs, rfl⟩ := List.exists_cons_of_ne_nil hrest
    rw [List.length_cons, ones_succ_left]
    omega
  rw [localMagnitude_eq, localMagnitude_eq, digitSum, List.length_cons, ones_succ_left]
  omega

/-! ### Packing (R110) -/

theorem packLoop_ne_nil (passes x : Nat) : packLoop passes x ≠ [] := by
  cases passes with
  | zero => simp [packLoop]
  | succ k => rw [packLoop]; split <;> simp

theorem packLoop_of_le (passes : Nat) {x : Nat} (hx : x ≤ 0x7F) :
    packLoop passes x = [setbit (BitVec.ofNat 8 (x % 128)) 7] := by
  cases passes with
  | zero => rfl
  | succ k => rw [packLoop, if_neg (Nat.not_lt.mpr hx)]

theorem packLoop_succ_of_lt (k : Nat) {x : Nat} (hx : 0x7F < x) :
    packLoop (k + 1) x = BitVec.ofNat 8 (x % 128) :: packLoop k (x / 128 - 1) := by
  rw [packLoop, if_pos hx]

/-- The magnitude that one pass of R110 leaves for the passes after it. -/
theorem div_sub_one_lt {k x : Nat} (hx : 0x7F < x) (hbound : x < 128 ^ (k + 1 + 1)) : x / 128 - 1 < 128 ^ (k + 1) := by
  rw [Nat.pow_succ 128 (k + 1)] at hbound
  omega

theorem packLoop_framed_of_le (passes : Nat) {x : Nat} (hx : x ≤ 0x7F) :
    framed (packLoop passes x) = true ∧ localMagnitude (packLoop passes x) = x := by
  obtain ⟨hflag, hdigit⟩ := (terminalByte_eq_iff x _).mp rfl
  rw [packLoop_of_le passes hx, localMagnitude_singleton, hdigit]
  exact ⟨hflag, Nat.mod_eq_of_lt (Nat.lt_succ_of_le hx)⟩

/-- What packing writes is framed and denotes the magnitude packed. -/
theorem packLoop_framed (k x : Nat) (hbound : x < 128 ^ (k + 1)) :
    framed (packLoop k x) = true ∧ localMagnitude (packLoop k x) = x := by
  induction k generalizing x with
  | zero => exact packLoop_framed_of_le 0 (Nat.le_of_lt_succ hbound)
  | succ n ih =>
    rcases Nat.lt_or_ge 0x7F x with hx | hx
    · obtain ⟨hflag, hdigit⟩ := (continuationByte_eq_iff x _).mp rfl
      obtain ⟨hframed, hrest⟩ := ih (x / 128 - 1) (div_sub_one_lt hx hbound)
      have hne := packLoop_ne_nil n (x / 128 - 1)
      rw [packLoop_succ_of_lt n hx, framed_cons _ hne, localMagnitude_cons _ hne, hflag, hdigit, hframed, hrest]
      exact ⟨rfl, by omega⟩
    · exact packLoop_framed_of_le _ hx

/-- A framed sequence is what packing writes for the magnitude it denotes. -/
theorem packLoop_localMagnitude (k : Nat) (bytes : List Byte) (hframed : framed bytes = true)
    (hbound : localMagnitude bytes < 128 ^ (k + 1)) : packLoop k (localMagnitude bytes) = bytes := by
  induction bytes generalizing k with
  | nil => cases hframed
  | cons b rest ih =>
    by_cases hrest : rest = []
    · subst hrest
      rw [localMagnitude_singleton, packLoop_of_le k (by omega), Nat.mod_mod,
        (terminalByte_eq_iff b.toNat b).mpr ⟨hframed, rfl⟩]
    · rw [framed_cons b hrest, Bool.and_eq_true, Bool.not_eq_true'] at hframed
      have hcons := localMagnitude_cons b hrest
      cases k with
      | zero => omega
      | succ n =>
        have hlt : 0x7F < localMagnitude (b :: rest) := by omega
        have hdigit : localMagnitude (b :: rest) % 128 = b.toNat % 128 := by omega
        have hnext : localMagnitude (b :: rest) / 128 - 1 = localMagnitude rest := by omega
        have hfit := div_sub_one_lt hlt hbound
        rw [hnext] at hfit
        rw [packLoop_succ_of_lt n hlt, hdigit, hnext, ih n hframed.2 hfit,
          (continuationByte_eq_iff b.toNat b).mpr ⟨hframed.1, rfl⟩]

/-- R72: ten bytes are enough for every u64. -/
theorem lt_pow_of_lt_u64 {x : Nat} (hx : x < 2 ^ 64) : x < 128 ^ (9 + 1) :=
  hx.trans (by decide)

theorem framed_vlqPack (x : Word) : framed (vlqPack x) = true :=
  (packLoop_framed 9 x.toNat (lt_pow_of_lt_u64 x.isLt)).1

@[simp] theorem localMagnitude_vlqPack (x : Word) : localMagnitude (vlqPack x) = x.toNat :=
  (packLoop_framed 9 x.toNat (lt_pow_of_lt_u64 x.isLt)).2

/-- R72: no second framed sequence denotes the same magnitude. -/
theorem eq_vlqPack {x : Word} {bytes : List Byte} (hframed : framed bytes = true)
    (hx : localMagnitude bytes = x.toNat) : bytes = vlqPack x := by
  rw [vlqPack, ← hx]
  exact (packLoop_localMagnitude 9 bytes hframed (hx ▸ lt_pow_of_lt_u64 x.isLt)).symm

/-- R72: the length of an encoding is the tier of the magnitude. -/
theorem mem_tier_length_vlqPack (x : Word) :
    tierStart (vlqPack x).length ≤ x.toNat ∧ x.toNat < tierStart ((vlqPack x).length + 1) := by
  have h := localMagnitude_mem_tier (ne_nil_of_framed (framed_vlqPack x))
  rwa [localMagnitude_vlqPack] at h

theorem length_vlqPack_pos (x : Word) : 1 ≤ (vlqPack x).length :=
  List.length_pos_iff.mpr (ne_nil_of_framed (framed_vlqPack x))

/-- Settles O14: the tier is the length of the encoding, and framed sequences of one magnitude are equal. -/
theorem everyMagnitudeHasOneEncoding : Obligations.EveryMagnitudeHasOneEncoding := by
  refine ⟨fun x => ?_, fun _ _ => eq_vlqPack, fun x y hxy => ?_⟩
  · obtain ⟨hlow, hhigh⟩ := mem_tier_length_vlqPack x
    exact ⟨_, ⟨length_vlqPack_pos x, length_vlqPack_le x, hlow, hhigh, rfl⟩, fun k _ hk hk' =>
      (tier_le_of_le (Nat.le_refl _) hk hhigh).antisymm (tier_le_of_le (Nat.le_refl _) hlow hk')⟩
  · exact tier_le_of_le hxy (mem_tier_length_vlqPack x).1 (mem_tier_length_vlqPack y).2

/-! ### Unpacking (R130) -/

/-- The loop reads a framed sequence to its end while the value stays in range, whatever follows. -/
theorem vlqUnpack_framed {m : Word} {bytes : List Byte} (rest : List Byte) (hframed : framed bytes = true)
    (hrange : localMagnitude bytes + m.toNat ≤ 2 ^ 64 - 1) :
    vlqUnpack m (bytes ++ rest) =
      { how := .ok (BitVec.ofNat 64 (localMagnitude bytes + m.toNat)), taken := bytes.length, rest := rest } := by
  obtain ⟨init, b, rfl, hclear, hterm⟩ := (framed_iff bytes).mp hframed
  have hmagnitude : localMagnitude (init ++ [b]) =
      digitSum init + ones init.length + (b.toNat % 128 + 1) * 128 ^ init.length - 1 := by
    rw [localMagnitude_eq, digitSum_append, List.length_append, List.length_singleton]
    simp only [digitSum, ones]
    congr 1
    ring
  have hinit := unpackLoop_append m.toNat (b :: rest) init 0 0 hclear
  simp only [Nat.zero_add, Nat.pow_zero, Nat.one_mul] at hinit
  rw [hmagnitude] at hrange ⊢
  rw [vlqUnpack, List.append_assoc, List.singleton_append, hinit (by rw [Config.maxU64]; omega),
    unpackLoop_terminal _ _ _ b rest hrange hterm, List.length_append, List.length_singleton]

/-- The loop stops at the first byte that takes the value out of range, at the latest at the terminal one (R131). -/
theorem unpackLoop_framed_overflow (m : Nat) (rest : List Byte) (bytes : List Byte) (acc j : Nat)
    (hframed : framed bytes = true)
    (hrange : Config.maxU64 < acc + 128 ^ j * (digitSum bytes + ones bytes.length) - 1 + m) :
    (unpackLoop m acc j (bytes ++ rest)).how = .overflow := by
  induction bytes generalizing acc j with
  | nil => cases hframed
  | cons b tail ih =>
    rw [List.cons_append]
    by_cases hover : Config.maxU64 < acc + (b.toNat % 128 + 1) * 128 ^ j - 1 + m
    · rw [unpackLoop_overflow m acc j b _ hover]
    · rw [List.length_cons, digitSum, ← acc_step] at hrange
      by_cases htail : tail = []
      · subst htail
        exact absurd hrange hover
      · rw [framed_cons b htail, Bool.and_eq_true, Bool.not_eq_true'] at hframed
        simp only [unpackLoop, if_neg hover, hframed.1, Bool.false_eq_true, if_false]
        exact ih _ _ hframed.2 hrange

theorem vlqUnpack_framed_overflow {m : Word} {bytes : List Byte} (rest : List Byte) (hframed : framed bytes = true)
    (hrange : 2 ^ 64 - 1 < localMagnitude bytes + m.toNat) : (vlqUnpack m (bytes ++ rest)).how = .overflow := by
  refine unpackLoop_framed_overflow m.toNat rest bytes 0 0 hframed ?_
  rwa [Nat.zero_add, Nat.pow_zero, Nat.one_mul, ← localMagnitude_eq]

/-- Settles O15: packing against the magnitude denoted, then the two ends of unpacking a framed sequence. -/
theorem framedSequencesAndValuesAreInverse : Obligations.FramedSequencesAndValuesAreInverse := by
  refine ⟨fun x => ⟨framed_vlqPack x, localMagnitude_vlqPack x⟩, fun m bytes rest hframed hrange => ?_,
    fun m bytes rest => vlqUnpack_framed_overflow rest⟩
  refine ⟨vlqUnpack_framed rest hframed hrange, (eq_vlqPack hframed ?_).symm⟩
  rw [BitVec.toNat_ofNat, Nat.mod_eq_of_lt (by omega)]

/-- Settles O18: the encoding is framed, and the magnitude it denotes is in range at its own baseline. -/
theorem decodeOfEncodeGivesTheValueBack : Obligations.DecodeOfEncodeGivesTheValueBack := by
  intro v m rest hm
  have hvalue : localMagnitude (vlqPack (v - m)) + m.toNat = v.toNat := by
    rw [localMagnitude_vlqPack, BitVec.toNat_sub_of_le hm]
    exact Nat.sub_add_cancel hm
  have hunpack := vlqUnpack_framed (m := m) rest (framed_vlqPack (v - m)) (hvalue ▸ Nat.le_sub_one_of_lt v.isLt)
  rwa [hvalue, BitVec.ofNat_toNat, BitVec.setWidth_eq] at hunpack

/-! ### The tenth byte (R75) -/

/-- R75: what the tier of ten bytes leaves of u64. -/
theorem ten_byte_range {bytes : List Byte} (hlen : bytes.length = 10) :
    localMagnitude bytes ≤ 2 ^ 64 - 1 ↔ digitSum bytes ≤ 0x7EFDFBF7EFDFBF7F := by
  have htier : tierStart 10 = 2 ^ 64 - 1 - 0x7EFDFBF7EFDFBF7F := by decide
  rw [localMagnitude, hlen, htier]
  omega

/-- R75: the tenth digit weighs 2^63, more than that tier has left, so it is 0. -/
theorem getLast?_of_ten_bytes {bytes : List Byte} (hframed : framed bytes = true) (hlen : bytes.length = 10)
    (hrange : localMagnitude bytes ≤ 2 ^ 64 - 1) : bytes.getLast? = some 0x80#8 := by
  obtain ⟨init, b, rfl, -, hterm⟩ := (framed_iff bytes).mp hframed
  have hinit : init.length = 9 := by simpa using hlen
  have hsum := (ten_byte_range hlen).mp hrange
  rw [digitSum_append, hinit] at hsum
  simp only [digitSum] at hsum
  rw [List.getLast?_concat, ← (terminalByte_eq_iff 0 b).mpr ⟨hterm, by omega⟩]
  rfl

/-- Settles O16: the range by the last tier, and the baseline only adds to the magnitude. -/
theorem tenByteSequencesEndInEighty : Obligations.TenByteSequencesEndInEighty := by
  refine ⟨fun bytes hframed hlen => ?_, by decide⟩
  refine ⟨ten_byte_range hlen, getLast?_of_ten_bytes hframed hlen, fun hlast m => ?_⟩
  have hout := mt (getLast?_of_ten_bytes hframed hlen) hlast
  omega

end Sys2Proof.Machine

/-! # Settling the statements about the zigzag (40_zigzag.md)

The maps on integers first, then their 64-bit images as words, then the two commands. The obligations of each part stand at
its end. -/

namespace Sys2Proof.Machine

/-! ### The maps on integers (R100, R101): the sign goes into the parity of the image -/

theorem zzDec_zzEnc (x : Int) : zzDec (zzEnc x) = x := by
  rw [zzEnc]
  split
  · rw [zzDec, if_pos (by omega)]
    omega
  · rw [zzDec, if_neg (by omega)]
    omega

theorem zzEnc_zzDec (u : Nat) : zzEnc (zzDec u) = u := by
  rw [zzDec]
  split
  · rw [zzEnc, if_pos (by omega)]
    omega
  · rw [zzEnc, if_neg (by omega)]
    omega

theorem zzEnc_eq_natAbs (x : Int) : zzEnc x = if 0 ≤ x then 2 * x.natAbs else 2 * x.natAbs - 1 := by
  rw [zzEnc]
  split <;> omega

/-- R100, R105: the images below 2b are those of the b values of either sign next to 0. -/
theorem zzEnc_lt_iff (x : Int) (b : Nat) : zzEnc x < 2 * b ↔ -(b : Int) ≤ x ∧ x < b := by
  rw [zzEnc]
  split <;> omega

/-! ### The images as words (R6, R102) -/

/-- R6: the model's signed reading is the library's. -/
theorem toS64_eq_toInt (u : Word) : toS64 u = u.toInt := by
  rw [toS64, BitVec.toInt_eq_toNat_cond]
  split <;> split <;> omega

theorem zzEncWord_eq_ofInt (x : Int) : zzEncWord x = BitVec.ofInt 64 (if 0 ≤ x then 2 * x else -2 * x - 1) := by
  rw [zzEncWord, ← BitVec.ofInt_natCast, zzEnc]
  congr 1
  split <;> omega

theorem zzDecWord_eq_ofInt (u : Word) :
    zzDecWord u =
      BitVec.ofInt 64 (if u.toNat % 2 = 0 then (u.toNat : Int) / 2 else -(((u.toNat : Int) + 1) / 2)) := by
  rw [zzDecWord, toU64, zzDec, Int.natCast_ediv, Int.natCast_ediv, Int.natCast_add, Int.cast_ofNat_Int, Int.natCast_one]

/-- R100: the image of a signed 64-bit value fits its word. -/
theorem toNat_zzEncWord_toS64 (u : Word) : (zzEncWord (toS64 u)).toNat = zzEnc (toS64 u) := by
  have hu := u.isLt
  have hfit : zzEnc (toS64 u) < 2 * 2 ^ 63 := by
    rw [zzEnc_lt_iff, toS64]
    split <;> omega
  rw [zzEncWord, BitVec.toNat_ofNat, Nat.mod_eq_of_lt (by omega)]

/-- R102: what the sign mask of both bit-level forms does. -/
theorem xor_signMask (w : Word) (p : Prop) [Decidable p] :
    w ^^^ (if p then 0xFFFFFFFFFFFFFFFF#64 else 0#64) = if p then ~~~w else w := by
  split
  · exact BitVec.xor_allOnes
  · exact BitVec.xor_zero

theorem zzEncWord_toS64_eq_xor (u : Word) :
    zzEncWord (toS64 u) = (u <<< 1) ^^^ (if toS64 u < 0 then 0xFFFFFFFFFFFFFFFF#64 else 0#64) := by
  have hu := u.isLt
  have hshift : (u <<< 1).toNat = u.toNat * 2 ^ 1 % 2 ^ 64 := by rw [BitVec.toNat_shiftLeft, Nat.shiftLeft_eq]
  apply BitVec.eq_of_toNat_eq
  rw [xor_signMask, toNat_zzEncWord_toS64, zzEnc, toS64]
  by_cases hpos : u.toNat < 2 ^ 63
  · rw [if_pos hpos, if_pos (by omega), if_neg (by omega), hshift]
    omega
  · rw [if_neg hpos, if_neg (by omega), if_pos (by omega), BitVec.toNat_not, hshift]
    omega

theorem zzDecWord_eq_xor (u : Word) :
    zzDecWord u = (u >>> 1) ^^^ (if u.getLsbD 0 then 0xFFFFFFFFFFFFFFFF#64 else 0#64) := by
  have hu := u.isLt
  have hodd : u.getLsbD 0 = true ↔ u.toNat % 2 = 1 := by rw [BitVec.getLsbD, Nat.testBit_zero, decide_eq_true_eq]
  have hshift : (u >>> 1).toNat = u.toNat / 2 ^ 1 := by rw [BitVec.toNat_ushiftRight, Nat.shiftRight_eq_div_pow]
  apply BitVec.eq_of_toNat_eq
  rw [xor_signMask, zzDecWord_eq_ofInt, BitVec.toNat_ofInt]
  by_cases heven : u.toNat % 2 = 0
  · rw [if_pos heven, if_neg (by rw [hodd]; omega), hshift]
    omega
  · rw [if_neg heven, if_pos (by rw [hodd]; omega), BitVec.toNat_not, hshift]
    omega

/-- Settles O8: the inverses hold of every integer, so their range hypotheses are not used. -/
theorem zigzagIsABijectionWithItsBitForms : Obligations.ZigzagIsABijectionWithItsBitForms :=
  ⟨fun x _ _ => zzDec_zzEnc x, fun u _ => zzEnc_zzDec u, zzEncWord_toS64_eq_xor, zzDecWord_eq_xor⟩

/-- R72: the tier of one byte. -/
theorem length_vlqPack_eq_one_iff (x : Word) : (vlqPack x).length = 1 ↔ x.toNat < 2 * 64 := by
  refine ⟨fun hlen => ?_, fun hx => ?_⟩
  · have hhigh := (mem_tier_length_vlqPack x).2
    rwa [hlen] at hhigh
  · rw [vlqPack, packLoop_of_le 9 (Nat.le_of_lt_succ hx), List.length_singleton]

/-- Settles O11: the tier of one byte ends at 2 · 64. -/
theorem zigzagKeepsSmallMagnitudesShort : Obligations.ZigzagKeepsSmallMagnitudesShort := by
  refine ⟨zzEnc_eq_natAbs, fun u => ?_⟩
  rw [length_vlqPack_eq_one_iff, toNat_zzEncWord_toS64, zzEnc_lt_iff]
  omega

/-! ### The commands (R103, R104) -/

theorem exec_zzenc (s : State) :
    exec .zzenc s = .next { s with result := zzEncWord (toS64 s.operand), err := 0#4, nbytes := 0#4 } :=
  exec_eq_next .zzenc s

theorem exec_zzdec (s : State) :
    exec .zzdec s = .next { s with result := zzDecWord s.operand, err := 0#4, nbytes := 0#4 } :=
  exec_eq_next .zzdec s

/-- Settles O9: R79's reading of OPERAND and R100's image, both in the library's terms. -/
theorem zzencStoresTheZigzagImage : Obligations.ZzencStoresTheZigzagImage := by
  intro s
  rw [exec_zzenc, toS64_eq_toInt, zzEncWord_eq_ofInt]

/-- Settles O10, with R101's value as an integer image. -/
theorem zzdecStoresTheSignedValue : Obligations.ZzdecStoresTheSignedValue := by
  intro s
  rw [exec_zzdec, zzDecWord_eq_ofInt]

/-- Settles O51, with R102's second form for the same value. -/
theorem zzdecCompletesWithTheBitForm : Obligations.ZzdecCompletesWithTheBitForm := by
  intro s
  refine ⟨_, exec_zzdec s, ?_⟩
  rw [zzDecWord_eq_xor]

end Sys2Proof.Machine

/-! # Settling the statements about the encoder (41_vlq_encoder.md)

First R110's pass on 64-bit words and R73's closed form, read one byte at a time from its least significant end. Then the
encoder's body in each of its cases, with the closed form for its bytes. Last the bulk loop: the four steps of one turn as
one state, and the turns that go on. -/

namespace Sys2Proof.Machine

/-! ### One pass of R110 on a 64-bit word -/

/-- R110: the last byte is the magnitude with the flag set. -/
theorem vlqPack_of_le {x : Word} (hx : x ≤ 0x7F#64) : vlqPack x = [x.setWidth 8 ||| 0x80#8] := by
  have hle : x.toNat ≤ 0x7F := hx
  have hbyte : BitVec.ofNat 8 (x.toNat % 128) = x.setWidth 8 := by
    rw [Nat.mod_eq_of_lt (Nat.lt_succ_of_le hle), BitVec.ofNat_toNat]
  rw [vlqPack, packLoop_of_le 9 hle, hbyte]
  rfl

/-- R110: a byte before the last is the low seven bits, and the passes after it have what is left, less one. The bound on
the passes is as good for that rest, which is smaller. -/
theorem vlqPack_of_lt {x : Word} (hx : 0x7F#64 < x) :
    vlqPack x = (x &&& 0x7F#64).setWidth 8 :: vlqPack ((x >>> 7) - 1#64) := by
  have hlt : 0x7F < x.toNat := hx
  have hshift : (x >>> 7).toNat = x.toNat / 128 := by rw [BitVec.toNat_ushiftRight, Nat.shiftRight_eq_div_pow]
  have hone : 1#64 ≤ x >>> 7 := BitVec.le_def.mpr (hshift.symm ▸ Nat.div_pos hlt (by decide))
  have hrest : ((x >>> 7) - 1#64).toNat = x.toNat / 128 - 1 := by
    rw [BitVec.toNat_sub_of_le hone, hshift]
    rfl
  have hbyte : (x &&& 0x7F#64).setWidth 8 = BitVec.ofNat 8 (x.toNat % 128) := by
    have hmask : x.toNat &&& 0x7F = x.toNat % 128 := Nat.and_two_pow_sub_one_eq_mod x.toNat 7
    rw [← BitVec.ofNat_toNat, BitVec.toNat_and, ← hmask]
    rfl
  rw [hbyte, vlqPack, vlqPack, hrest, packLoop_succ_of_lt 8 hlt,
    packLoop_bound 8 _ (div_sub_one_lt hlt (lt_pow_of_lt_u64 x.isLt))]

/-- Settles O12: a pass of the loop in both its cases, and the tiers of u64. -/
theorem packTakesSevenBitsAPass : Obligations.PackTakesSevenBitsAPass :=
  fun x => ⟨vlqPack_of_le, vlqPack_of_lt, length_vlqPack_pos x, length_vlqPack_le x⟩

/-! ### The closed form (R73) -/

theorem length_wireBytes (x n : Nat) : (wireBytes x n).length = n := by
  rw [wireBytes, List.length_map, List.length_range]

/-- R71: a tier starts where the tier below it, moved up by one digit, starts. -/
theorem tierStart_add_two (n : Nat) : tierStart (n + 1 + 1) = 128 * (tierStart (n + 1) + 1) := by
  have hones := tierStart_succ (n + 1)
  rw [ones_succ_left, ← tierStart_succ] at hones
  exact Nat.succ_injective (hones.trans (Nat.add_comm _ _))

theorem wireBytes_one (x : Nat) : wireBytes x 1 = [setbit (BitVec.ofNat 8 (x % 128)) 7] := by
  have hbyte : setbit (BitVec.ofNat 8 (x % 128)) 7 = BitVec.ofNat 8 (x % 128 + 128) := by
    rw [terminalByte_eq_iff, bit_seven_eq, BitVec.toNat_ofNat, decide_eq_true_eq]
    omega
  rw [hbyte]
  simp [wireBytes, tierStart]

/-- R73: past its first digit the closed form is that of what R110's pass leaves, one tier down. -/
theorem wireBytes_add_two {x n : Nat} (hx : tierStart (n + 1 + 1) ≤ x) :
    wireBytes x (n + 1 + 1) = BitVec.ofNat 8 (x % 128) :: wireBytes (x / 128 - 1) (n + 1) := by
  have htier := tierStart_add_two n
  have hfirst : (x - tierStart (n + 1 + 1)) % 128 = x % 128 := by omega
  have hrest : (x - tierStart (n + 1 + 1)) / 128 = x / 128 - 1 - tierStart (n + 1) := by omega
  rw [wireBytes, List.range_succ_eq_map, List.map_cons, List.map_map, wireBytes]
  congr 1
  · rw [Nat.pow_zero, Nat.div_one, hfirst, if_neg (by omega), Nat.add_zero]
  · refine List.map_congr_left fun i _ => ?_
    rw [Function.comp_apply, Nat.pow_succ', ← Nat.div_div_eq_div_mul, hrest]
    simp only [Nat.succ_eq_add_one, Nat.add_right_cancel_iff]

/-- R111: the loop writes the closed form, one digit a pass. -/
theorem packLoop_eq_wireBytes (n k x : Nat) (hbound : x < 128 ^ (k + 1)) (hlow : tierStart (n + 1) ≤ x)
    (hhigh : x < tierStart (n + 1 + 1)) : packLoop k x = wireBytes x (n + 1) := by
  induction n generalizing k x with
  | zero =>
    rw [packLoop_of_le k (Nat.le_of_lt_succ hhigh), wireBytes_one]
  | succ n ih =>
    have hstart := tierStart_add_two n
    have hend := tierStart_add_two (n + 1)
    have hx : 0x7F < x := by omega
    cases k with
    | zero => omega
    | succ k =>
      rw [packLoop_succ_of_lt k hx, wireBytes_add_two hlow,
        ih k (x / 128 - 1) (div_sub_one_lt hx hbound) (by omega) (by omega)]

/-- Settles O13: the loop's nine passes and its last byte are enough for every u64. -/
theorem packIsTheClosedForm : Obligations.PackIsTheClosedForm := by
  intro x n hn hlow hhigh
  obtain ⟨k, rfl⟩ := Nat.exists_eq_add_of_le' hn
  exact packLoop_eq_wireBytes k 9 x.toNat (lt_pow_of_lt_u64 x.isLt) hlow hhigh

/-! ### The baseline (R112) -/

/-- Settles O17: v − k falls as the baseline k rises, and the length with it (R72). -/
theorem raisingTheBaselineNeverLengthens : Obligations.RaisingTheBaselineNeverLengthens := by
  intro v m k hmk hkv
  obtain ⟨-, -, length_le_of_le⟩ := everyMagnitudeHasOneEncoding
  refine length_le_of_le _ _ (BitVec.le_def.mpr ?_)
  rw [BitVec.toNat_sub_of_le hkv, BitVec.toNat_sub_of_le (BitVec.le_trans hmk hkv)]
  exact Nat.sub_le_sub_left hmk v.toNat

/-! ### The encoder's body, case by case (R113, R150) -/

theorem encodeValue_of_closed {s : State} (hopen : s.encOpen = false) (v : Word) :
    encodeValue v s = raiseError .misuse 0 s := by
  rcases encodeValue_cases v s with ⟨-, h⟩ | ⟨h, -⟩ | ⟨h, -⟩
  · exact h
  all_goals exact absurd (hopen.symm.trans h) Bool.false_ne_true

theorem encodeValue_of_lt {s : State} {v : Word} (hopen : s.encOpen = true) (hv : v.toNat < s.encBase.toNat) :
    encodeValue v s = raiseError .precondition 0 s := by
  rcases encodeValue_cases v s with ⟨h, -⟩ | ⟨-, -, h⟩ | ⟨-, hle, -⟩
  · exact absurd (h.symm.trans hopen) Bool.false_ne_true
  · exact h
  · exact absurd hv (Nat.not_lt.mpr hle)

theorem encodeValue_of_le {s : State} {v : Word} (hopen : s.encOpen = true) (hv : s.encBase.toNat ≤ v.toNat) :
    encodeValue v s = succeed (vlqPack (v - s.encBase)).length (sinkAppendAll (vlqPack (v - s.encBase)) s) := by
  rcases encodeValue_cases v s with ⟨h, -⟩ | ⟨-, hlt, -⟩ | ⟨-, -, h⟩
  · exact absurd (h.symm.trans hopen) Bool.false_ne_true
  · exact absurd hlt (Nat.not_lt.mpr hv)
  · exact h

/-- R113 with R73's closed form for the bytes, whose number is the tier of v − m. -/
theorem encodeValue_of_mem_tier {s : State} {v : Word} {n : Nat} (hopen : s.encOpen = true)
    (hv : s.encBase.toNat ≤ v.toNat) (hn : 1 ≤ n) (hlow : tierStart n ≤ v.toNat - s.encBase.toNat)
    (hhigh : v.toNat - s.encBase.toNat < tierStart (n + 1)) :
    encodeValue v s =
      { s with
        sinkLog := s.sinkLog ++ (wireBytes (v.toNat - s.encBase.toNat) n).map SinkEvent.append
        err := 0#4
        nbytes := BitVec.ofNat 4 n } := by
  have hsub : (v - s.encBase).toNat = v.toNat - s.encBase.toNat := BitVec.toNat_sub_of_le hv
  rw [← hsub] at hlow hhigh ⊢
  rw [encodeValue_of_le hopen hv, packIsTheClosedForm _ n hn hlow hhigh, length_wireBytes]
  rfl

theorem exec_uenc (s : State) : exec .uenc s = .next (encodeValue s.operand s) := exec_eq_next .uenc s

/-- Settles O19: the three ends of the encoder's body, on OPERAND. -/
theorem uencAppendsTheEncoding : Obligations.UencAppendsTheEncoding := by
  intro s
  rw [exec_uenc]
  refine ⟨fun hclosed => ?_, fun hopen hlt => ?_, fun hopen hle n hn hlow hhigh => ?_⟩
  · rw [encodeValue_of_closed hclosed]; rfl
  · rw [encodeValue_of_lt hopen hlt]; rfl
  · rw [encodeValue_of_mem_tier hopen hle hn hlow hhigh]

/-! ### Runs of several steps -/

theorem runSteps_succ {s t : State} (h : step s = .next t) (n : Nat) : runSteps (n + 1) s = runSteps n t := by
  rw [runSteps, h]

/-- A host read of STATUS where its values are ones a command produces (R51, 93 U2). -/
theorem hostLoad_status {s : State} (h : s.StatusLegal) : hostLoad 0x18 8 s = .next (recordLoad 0x18 (statusWord s) s) :=
  hostLoad_of_lt (by decide) s fun _ _ => h

/-- R25, R26: a host that reads STATUS sees ERR = 0 exactly after a command without error. -/
theorem statusErr_statusWord_eq_zero_iff (s : State) : statusErr (statusWord s) = 0 ↔ s.err = 0#4 := by
  obtain ⟨herr, -⟩ := statusFieldsStandInTheirBits s
  rw [statusErr, herr]
  exact (BitVec.toNat_eq (y := 0#4)).symm

/-! ### One turn of BULK_ENC (R84, R116, log 17) -/

/-- An encode command looks neither at OPERAND, once the value is given, nor at the host's moves. -/
theorem encodeValue_operand_moves (v x : Word) (ms : List HostMove) (s : State) :
    encodeValue v { s with operand := x, moves := ms } = { encodeValue v s with operand := x, moves := ms } := by
  rcases encodeValue_cases v s with ⟨hopen, h⟩ | ⟨hopen, hv, h⟩ | ⟨hopen, hv, h⟩ <;> rw [h]
  · exact encodeValue_of_closed (s := { s with operand := x, moves := ms }) hopen v
  · exact encodeValue_of_lt (s := { s with operand := x, moves := ms }) hopen hv
  · exact encodeValue_of_le (s := { s with operand := x, moves := ms }) hopen hv

/-- What one turn of BULK_ENC for `v` leaves, with the values `vs` still to encode and the host's moves `rest` after the
loop: the encode command done, STATUS read, and the loop going on only where that read ERR = 0. -/
def afterBulkEncTurn (v : Word) (vs : List Word) (rest : List HostMove) (s : State) : State :=
  recordLoad 0x18 (statusWord (encodeValue v s))
    { encodeValue v s with
      operand := v
      moves := if (encodeValue v s).err = 0#4 then .bulkEnc vs :: rest else rest }

/-- R84, R116: the check reads STATUS, and the loop goes on where ERR = 0. -/
theorem step_bulkEncCheck {s : State} {vs : List Word} {rest : List HostMove} (h : s.moves = .bulkEncCheck vs :: rest)
    (hlegal : s.StatusLegal) :
    step s = .next (recordLoad 0x18 (statusWord s)
      { s with moves := if s.err = 0#4 then .bulkEnc vs :: rest else rest }) := by
  have hload : hostLoad 0x18 8 { s with moves := rest } = _ := hostLoad_status hlegal
  have hzero : statusErr (statusWord { s with moves := rest }) = 0 ↔ s.err = 0#4 := statusErr_statusWord_eq_zero_iff _
  rw [step_of_moves h, runMove, bulkEncCheck, hload]
  simp only [hzero]
  split <;> rfl

/-- The four steps of a turn: the loop's own, the two stores of `UENC v`, and the check. -/
theorem runSteps_bulkEnc_cons {s : State} {v : Word} {vs : List Word} {rest : List HostMove}
    (h : s.moves = .bulkEnc (v :: vs) :: rest) (n : Nat) :
    runSteps (n + 4) s = runSteps n (afterBulkEncTurn v vs rest s) := by
  have hlegal : State.StatusLegal { encodeValue v s with operand := v, moves := .bulkEncCheck vs :: rest } :=
    (encodeValue_outcomeLegal v s).statusLegal
  calc
    runSteps (n + 4) s
    _ = runSteps (n + 3) { s with moves := expand (.cmd .uenc (some v)) ++ .bulkEncCheck vs :: rest } :=
      runSteps_succ (step_of_moves h) _
    _ = runSteps (n + 2) { s with operand := v, moves := expand (.cmd .uenc none) ++ .bulkEncCheck vs :: rest } :=
      runSteps_succ (step_storeTo_operand rfl) _
    _ = runSteps (n + 1) (encodeValue v { s with operand := v, moves := .bulkEncCheck vs :: rest }) :=
      runSteps_succ ((step_storeTo_cmd rfl).trans (exec_uenc _)) _
    _ = runSteps (n + 1) { encodeValue v s with operand := v, moves := .bulkEncCheck vs :: rest } := by
      rw [encodeValue_operand_moves]
    _ = runSteps n (afterBulkEncTurn v vs rest s) := runSteps_succ (step_bulkEncCheck rfl hlegal) _

/-- R116: a turn at or above the baseline appends the value's encoding and goes on. -/
theorem afterBulkEncTurn_of_le {s : State} {v : Word} (hopen : s.encOpen = true) (hv : s.encBase ≤ v) (vs : List Word)
    (rest : List HostMove) :
    (afterBulkEncTurn v vs rest s).moves = .bulkEnc vs :: rest ∧
      (afterBulkEncTurn v vs rest s).encOpen = true ∧
      (afterBulkEncTurn v vs rest s).encBase = s.encBase ∧
      (afterBulkEncTurn v vs rest s).sinkLog = s.sinkLog ++ (vlqPack (v - s.encBase)).map SinkEvent.append ∧
      (afterBulkEncTurn v vs rest s).err = 0#4 := by
  rw [afterBulkEncTurn, encodeValue_of_le hopen hv]
  exact ⟨rfl, hopen, rfl, rfl, rfl⟩

/-- R181: no error has the code of success. -/
theorem Err.code_ne_zero (e : Err) : e.code ≠ 0#4 := by
  cases e <;> decide

/-- R116: a turn whose command raises an error appends nothing and ends the loop. -/
theorem afterBulkEncTurn_of_raiseError {s : State} {v : Word} {e : Err} (h : encodeValue v s = raiseError e 0 s)
    (vs : List Word) (rest : List HostMove) :
    (afterBulkEncTurn v vs rest s).moves = rest ∧ (afterBulkEncTurn v vs rest s).sinkLog = s.sinkLog ∧
      (afterBulkEncTurn v vs rest s).err = e.code ∧ (afterBulkEncTurn v vs rest s).nbytes = 0#4 := by
  rw [afterBulkEncTurn, h]
  exact ⟨if_neg (Err.code_ne_zero e), rfl, rfl, rfl⟩

/-! ### The loop -/

/-- R116: the turns for values at or above the baseline append their encodings in order, with nothing between. -/
theorem runSteps_bulkEnc_append (done more : List Word) (rest : List HostMove) (s : State)
    (hmoves : s.moves = .bulkEnc (done ++ more) :: rest) (hopen : s.encOpen = true) (hdone : ∀ v ∈ done, s.encBase ≤ v) :
    ∃ t, (∀ n, runSteps (4 * done.length + n) s = runSteps n t) ∧ t.moves = .bulkEnc more :: rest ∧
      t.encOpen = true ∧ t.encBase = s.encBase ∧
      t.sinkLog = s.sinkLog ++ done.flatMap (fun v => (vlqPack (v - s.encBase)).map SinkEvent.append) ∧
      (s.err = 0#4 ∨ done ≠ [] → t.err = 0#4) := by
  induction done generalizing s with
  | nil =>
    exact ⟨s, fun n => by rw [List.length_nil, Nat.mul_zero, Nat.zero_add], hmoves, hopen, rfl, (List.append_nil _).symm,
      by simp⟩
  | cons v vs ih =>
    obtain ⟨hv, hvs⟩ := List.forall_mem_cons.mp hdone
    obtain ⟨hmoves', hopen', hbase, hlog, herr⟩ := afterBulkEncTurn_of_le hopen hv (vs ++ more) rest
    obtain ⟨t, hrun, htmoves, htopen, htbase, htlog, hterr⟩ := ih _ hmoves' hopen' (hbase.symm ▸ hvs)
    refine ⟨t, fun n => ?_, htmoves, htopen, htbase.trans hbase, ?_, fun _ => hterr (.inl herr)⟩
    · rw [List.length_cons, Nat.mul_add_one, Nat.add_right_comm]
      exact (runSteps_bulkEnc_cons hmoves _).trans (hrun n)
    · rw [htlog, hbase, hlog, List.flatMap_cons, List.append_assoc]

/-- Settles O49: the turns before the end append, and then no value is left, or the turn's command raises its error. -/
theorem bulkEncAppendsInOrderAndStopsOnError : Obligations.BulkEncAppendsInOrderAndStopsOnError := by
  intro s values rest hmoves
  refine ⟨fun hopen hvalues => ?_, ?_, fun hclosed hne => ?_⟩
  · obtain ⟨t, hrun, htmoves, -, -, hlog, herr⟩ :=
      runSteps_bulkEnc_append values [] rest s (by rwa [List.append_nil]) hopen hvalues
    exact ⟨{ t with moves := rest }, (hrun 1).trans (runSteps_succ (step_of_moves htmoves) 0), rfl, hlog,
      fun hne => herr (.inr hne)⟩
  · rintro hopen done v more rfl hdone hv
    obtain ⟨t, hrun, htmoves, htopen, htbase, hlog, -⟩ :=
      runSteps_bulkEnc_append done (v :: more) rest s hmoves hopen hdone
    obtain ⟨hend, hkept, herr, hnbytes⟩ :=
      afterBulkEncTurn_of_raiseError (encodeValue_of_lt htopen (htbase.symm ▸ hv)) more rest
    exact ⟨_, (hrun 4).trans (runSteps_bulkEnc_cons htmoves 0), hend, hkept.trans hlog, herr, hnbytes⟩
  · obtain ⟨v, vs, rfl⟩ := List.exists_cons_of_ne_nil hne
    exact ⟨_, runSteps_bulkEnc_cons hmoves 0, afterBulkEncTurn_of_raiseError (encodeValue_of_closed hclosed v) vs rest⟩

end Sys2Proof.Machine

/-! # Settling the statements about the decoder (42_vlq_decoder.md)

First the three ways an unpacking ends, each for the queues that end so, and that every queue is one of these. Then the
decoder's body in each of its cases. Last the bulk loop: the three steps of one turn as one state, the turns that go on and
the one that stops. -/

namespace Sys2Proof.Machine

/-! ### The bytes taken (R135) -/

/-- Settles O21: the bytes that one decode takes from the head of the queue. -/
theorem decodeTakesAtMostElevenBytes : Obligations.DecodeTakesAtMostElevenBytes := by
  intro m queue
  obtain ⟨bytes, hqueue, htaken, hle, hfit, hpos⟩ := vlqUnpack_takes_head m queue
  rw [htaken]
  refine ⟨hle, ?_, ?_, fun v hv => ⟨hpos (by simp [hv]), hfit (by simp [hv])⟩⟩
  · rw [hqueue, List.length_append]
    exact Nat.le_add_right _ _
  · conv_rhs => rw [hqueue, List.drop_left]

/-! ### The three ends of an unpacking (R130 to R132) -/

theorem noTerminal_concat (bytes : List Byte) (b : Byte) :
    noTerminal (bytes ++ [b]) = (noTerminal bytes && !bit b 7) := by
  simp [noTerminal]

/-- R130: what one more byte at the end makes of the magnitude. -/
theorem localMagnitude_concat (bytes : List Byte) (b : Byte) :
    localMagnitude (bytes ++ [b]) =
      digitSum bytes + ones bytes.length + (b.toNat % 128 + 1) * 128 ^ bytes.length - 1 := by
  rw [localMagnitude_eq, digitSum_append, List.length_append, List.length_singleton]
  simp only [digitSum, ones]
  congr 1
  ring

/-- R130: the loop is past an in-range string of clear flags, with its magnitude accumulated. -/
theorem vlqUnpack_append {m : Word} {bytes : List Byte} (queue : List Byte) (hclear : noTerminal bytes = true)
    (hrange : localMagnitude bytes + m.toNat ≤ 2 ^ 64 - 1) :
    vlqUnpack m (bytes ++ queue) =
      unpackLoop m.toNat (digitSum bytes + ones bytes.length) bytes.length queue := by
  have hloop := unpackLoop_append m.toNat queue bytes 0 0 hclear
  simp only [Nat.zero_add, Nat.pow_zero, Nat.one_mul, ← localMagnitude_eq] at hloop
  exact hloop hrange

/-- R132: the source ends while the flags are clear and the value in range. -/
theorem vlqUnpack_insufficientData {m : Word} {queue : List Byte} (hclear : noTerminal queue = true)
    (hrange : localMagnitude queue + m.toNat ≤ 2 ^ 64 - 1) :
    vlqUnpack m queue = { how := .insufficientData, taken := queue.length, rest := [] } := by
  have hloop := vlqUnpack_append [] hclear hrange
  rwa [List.append_nil, unpackLoop] at hloop

/-- R131: the first byte that takes the value out of range is the last one taken. -/
theorem vlqUnpack_overflow {m : Word} {bytes : List Byte} {b : Byte} (rest : List Byte)
    (hclear : noTerminal bytes = true) (hrange : localMagnitude bytes + m.toNat ≤ 2 ^ 64 - 1)
    (hover : 2 ^ 64 - 1 < localMagnitude (bytes ++ [b]) + m.toNat) :
    vlqUnpack m (bytes ++ b :: rest) = { how := .overflow, taken := bytes.length + 1, rest := rest } := by
  rw [localMagnitude_concat] at hover
  rw [vlqUnpack_append _ hclear hrange, unpackLoop_overflow _ _ _ b rest hover]

/-- R137: every queue starts with an in-range framed sequence, or with an in-range string of clear flags and a byte that
takes the value out of range, or is such a string itself. By induction from the queue's end: only a byte after such a string
decides anything. -/
theorem queue_cases (m : Word) (queue : List Byte) :
    (∃ bytes rest, queue = bytes ++ rest ∧ framed bytes = true ∧ localMagnitude bytes + m.toNat ≤ 2 ^ 64 - 1) ∨
    (∃ bytes b rest, queue = bytes ++ b :: rest ∧ noTerminal bytes = true ∧
      localMagnitude bytes + m.toNat ≤ 2 ^ 64 - 1 ∧ 2 ^ 64 - 1 < localMagnitude (bytes ++ [b]) + m.toNat) ∨
    (noTerminal queue = true ∧ localMagnitude queue + m.toNat ≤ 2 ^ 64 - 1) := by
  induction queue using List.reverseRecOn with
  | nil => exact .inr (.inr ⟨rfl, by simpa [localMagnitude, tierStart, digitSum] using Nat.le_sub_one_of_lt m.isLt⟩)
  | append_singleton init b ih =>
    rcases ih with ⟨bytes, rest, rfl, h⟩ | ⟨bytes, c, rest, rfl, h⟩ | ⟨hclear, hrange⟩
    · exact .inl ⟨bytes, rest ++ [b], List.append_assoc _ _ _, h⟩
    · exact .inr (.inl ⟨bytes, c, rest ++ [b], List.append_assoc _ _ _, h⟩)
    · rcases Nat.lt_or_ge (2 ^ 64 - 1) (localMagnitude (init ++ [b]) + m.toNat) with hover | hfit
      · exact .inr (.inl ⟨init, b, [], rfl, hclear, hrange, hover⟩)
      · cases hterm : bit b 7 with
        | true =>
          exact .inl ⟨init ++ [b], [], (List.append_nil _).symm, (framed_iff _).mpr ⟨init, b, rfl, hclear, hterm⟩, hfit⟩
        | false => exact .inr (.inr ⟨by rw [noTerminal_concat, hclear, hterm]; rfl, hfit⟩)

/-- Where some premise always holds and no two conclusions do, the implications between them reverse. -/
theorem iff_of_exhaustive_of_exclusive {P Q R A B C : Prop} (hA : P → A) (hB : Q → B) (hC : R → C)
    (hcases : P ∨ Q ∨ R) (hAB : A → ¬B) (hAC : A → ¬C) (hBC : B → ¬C) : (A ↔ P) ∧ (B ↔ Q) ∧ (C ↔ R) := by
  tauto

/-- Settles O22: each kind of queue has its own end, and there is no other kind. -/
theorem decodeEndsByTheFirstDecidingByte : Obligations.DecodeEndsByTheFirstDecidingByte := by
  intro m queue
  refine iff_of_exhaustive_of_exclusive ?ok ?overflow ?insufficientData (queue_cases m queue) ?_ ?_ ?_
  case ok =>
    rintro ⟨bytes, rest, rfl, hframed, hrange⟩
    exact ⟨_, congrArg Unpacked.how (vlqUnpack_framed rest hframed hrange)⟩
  case overflow =>
    rintro ⟨bytes, b, rest, rfl, hclear, hrange, hover⟩
    rw [vlqUnpack_overflow rest hclear hrange hover]
  case insufficientData =>
    rintro ⟨hclear, hrange⟩
    rw [vlqUnpack_insufficientData hclear hrange]
  · rintro ⟨v, hok⟩ hover
    exact nomatch hok.symm.trans hover
  · rintro ⟨v, hok⟩ hend
    exact nomatch hok.symm.trans hend
  · intro hover hend
    exact nomatch hover.symm.trans hend

/-! ### The decoder's body, case by case (R134, R151) -/

theorem decodeValue_of_closed {s : State} (hopen : s.decOpen = false) (post : Word → Word) :
    decodeValue post s = raiseError .misuse 0 s := by
  rcases decodeValue_cases post s with ⟨-, h⟩ | ⟨h, -⟩ | ⟨h, -⟩ | ⟨h, -⟩
  · exact h
  all_goals exact absurd (hopen.symm.trans h) Bool.false_ne_true

/-- R133: an in-range framed sequence at the head of the source. -/
theorem decodeValue_of_framed {s : State} {bytes rest : List Byte} (hopen : s.decOpen = true)
    (hsource : s.source = bytes ++ rest) (hframed : framed bytes = true)
    (hrange : localMagnitude bytes + s.decBase.toNat ≤ 2 ^ 64 - 1) (post : Word → Word) :
    decodeValue post s =
      succeed bytes.length
        { s with source := rest, result := post (BitVec.ofNat 64 (localMagnitude bytes + s.decBase.toNat)) } := by
  rw [decodeValue, if_pos hopen, hsource, vlqUnpack_framed rest hframed hrange]

/-- R131: a byte of the source takes the value out of range. -/
theorem decodeValue_of_overflow {s : State} {bytes rest : List Byte} {b : Byte} (hopen : s.decOpen = true)
    (hsource : s.source = bytes ++ b :: rest) (hclear : noTerminal bytes = true)
    (hrange : localMagnitude bytes + s.decBase.toNat ≤ 2 ^ 64 - 1)
    (hover : 2 ^ 64 - 1 < localMagnitude (bytes ++ [b]) + s.decBase.toNat) (post : Word → Word) :
    decodeValue post s = raiseError .overflow (bytes.length + 1) { s with source := rest } := by
  rw [decodeValue, if_pos hopen, hsource, vlqUnpack_overflow rest hclear hrange hover]

/-- R132: the source ends before a byte that decides. -/
theorem decodeValue_of_insufficientData {s : State} (hopen : s.decOpen = true) (hclear : noTerminal s.source = true)
    (hrange : localMagnitude s.source + s.decBase.toNat ≤ 2 ^ 64 - 1) (post : Word → Word) :
    decodeValue post s = raiseError .insufficientData s.source.length { s with source := [] } := by
  rw [decodeValue, if_pos hopen, vlqUnpack_insufficientData hclear hrange]

theorem exec_udec (s : State) : exec .udec s = .next (decodeValue (fun v => v) s) := exec_eq_next .udec s

/-- Settles O23: the four ends of the decoder's body, with the value as it is. -/
theorem udecStoresTheDecodedValue : Obligations.UdecStoresTheDecodedValue := by
  intro s
  rw [exec_udec]
  refine ⟨fun hclosed => ?_, fun hopen => ⟨fun bytes rest hsource hframed hrange => ?_,
    fun bytes b rest hsource hclear hrange hover => ?_, fun hclear hrange => ?_⟩⟩
  · rw [decodeValue_of_closed hclosed]; rfl
  · rw [decodeValue_of_framed hopen hsource hframed hrange]; rfl
  · rw [decodeValue_of_overflow hopen hsource hclear hrange hover]; rfl
  · rw [decodeValue_of_insufficientData hopen hclear hrange]; rfl

/-! ### One turn of BULK_DEC (R84, R136, log 17) -/

/-- A decode command does not look at the host's moves. -/
theorem decodeValue_moves (post : Word → Word) (ms : List HostMove) (s : State) :
    decodeValue post { s with moves := ms } = { decodeValue post s with moves := ms } := by
  rcases decodeValue_cases post s with ⟨hopen, h⟩ | ⟨hopen, hhow, h⟩ | ⟨hopen, hhow, h⟩ | ⟨hopen, v, hhow, h⟩ <;> rw [h]
  · exact decodeValue_of_closed (s := { s with moves := ms }) hopen post
  all_goals simp only [decodeValue, hopen, hhow, if_true]; rfl

/-- R25: what a host that reads STATUS sees in its fields. -/
theorem statusErr_statusWord (s : State) : statusErr (statusWord s) = s.err.toNat := by
  obtain ⟨herr, -⟩ := statusFieldsStandInTheirBits s
  rw [statusErr, herr]

theorem statusNbytes_statusWord (s : State) : statusNbytes (statusWord s) = s.nbytes.toNat := by
  obtain ⟨-, hnbytes, -⟩ := statusFieldsStandInTheirBits s
  rw [statusNbytes, hnbytes]

/-- R136: the loop ends cleanly on INSUFFICIENT_DATA with no byte taken, and on nothing else. -/
theorem bulkDecEnd_statusWord (s : State) :
    bulkDecEnd (statusWord s) = if s.err = 1#4 ∧ s.nbytes = 0#4 then .clean else .failed := by
  simp only [bulkDecEnd, statusErr_statusWord, statusNbytes_statusWord, BitVec.toNat_eq]
  rfl

/-- What BULK_DEC's check leaves, with the values `got` decoded before it and the host's moves `rest` after the loop: STATUS
and RESULT read, and the loop going on with RESULT where ERR = 0, and its end recorded where not. -/
def afterBulkDecCheck (got : List Word) (rest : List HostMove) (s : State) : State :=
  let u := recordLoad 0x10 s.result (recordLoad 0x18 (statusWord s) s)
  if s.err = 0#4 then { u with moves := .bulkDec (got ++ [s.result]) :: rest }
  else { u with moves := rest, seen := .bulkDecoded got (bulkDecEnd (statusWord s)) :: u.seen }

theorem step_bulkDecCheck {s : State} {got : List Word} {rest : List HostMove}
    (h : s.moves = .bulkDecCheck got :: rest) (hlegal : s.StatusLegal) :
    step s = .next (afterBulkDecCheck got rest s) := by
  have hstatus : hostLoad 0x18 8 { s with moves := rest } = _ := hostLoad_status hlegal
  have hresult (t : State) : hostLoad 0x10 8 t = .next (recordLoad 0x10 t.result t) :=
    hostLoad_of_lt (by decide) t (fun h18 => absurd h18 (by decide))
  have hzero : statusErr (statusWord { s with moves := rest }) = 0 ↔ s.err = 0#4 := statusErr_statusWord_eq_zero_iff _
  rw [step_of_moves h, runMove, bulkDecCheck, hstatus, afterBulkDecCheck]
  simp only [hresult, hzero]
  split <;> rfl

/-- The three steps of a turn: the loop's own, the store of `UDEC`, and the check. -/
theorem runSteps_bulkDec {s : State} {got : List Word} {rest : List HostMove} (h : s.moves = .bulkDec got :: rest)
    (n : Nat) :
    runSteps (n + 3) s = runSteps n (afterBulkDecCheck got rest (decodeValue (fun v => v) s)) := by
  have hlegal : State.StatusLegal { decodeValue (fun v => v) s with moves := .bulkDecCheck got :: rest } :=
    (decodeValue_outcomeLegal _ s).statusLegal
  calc
    runSteps (n + 3) s
    _ = runSteps (n + 2) { s with moves := expand (.cmd .udec none) ++ .bulkDecCheck got :: rest } :=
      runSteps_succ (step_of_moves h) _
    _ = runSteps (n + 1) (decodeValue (fun v => v) { s with moves := .bulkDecCheck got :: rest }) :=
      runSteps_succ ((step_storeTo_cmd rfl).trans (exec_udec _)) _
    _ = runSteps (n + 1) { decodeValue (fun v => v) s with moves := .bulkDecCheck got :: rest } := by
      rw [decodeValue_moves]
    _ = runSteps n (afterBulkDecCheck got rest (decodeValue (fun v => v) s)) :=
      runSteps_succ (step_bulkDecCheck rfl hlegal) _

/-- R74, R113: the encoding of a value at its own baseline, at the head of the source. -/
theorem decodeValue_of_encoded {s : State} {v : Word} {left : List Byte} (hopen : s.decOpen = true) (hv : s.decBase ≤ v)
    (hsource : s.source = vlqPack (v - s.decBase) ++ left) (post : Word → Word) :
    decodeValue post s = succeed (vlqPack (v - s.decBase)).length { s with source := left, result := post v } := by
  rw [decodeValue, if_pos hopen, hsource, decodeOfEncodeGivesTheValueBack v s.decBase left hv]

/-- R136: a turn at an encoding takes its bytes and goes on with the value. -/
theorem afterBulkDecCheck_of_encoded {s : State} {v : Word} {left : List Byte} (hopen : s.decOpen = true)
    (hv : s.decBase ≤ v) (hsource : s.source = vlqPack (v - s.decBase) ++ left) (got : List Word)
    (rest : List HostMove) :
    (afterBulkDecCheck got rest (decodeValue (fun v => v) s)).moves = .bulkDec (got ++ [v]) :: rest ∧
      (afterBulkDecCheck got rest (decodeValue (fun v => v) s)).decOpen = true ∧
      (afterBulkDecCheck got rest (decodeValue (fun v => v) s)).decBase = s.decBase ∧
      (afterBulkDecCheck got rest (decodeValue (fun v => v) s)).source = left := by
  rw [decodeValue_of_encoded hopen hv hsource, afterBulkDecCheck, if_pos (succeed_err _ _)]
  exact ⟨rfl, hopen, rfl, rfl⟩

/-- R136: a turn whose command ended in an error stops the loop and records its end. -/
theorem afterBulkDecCheck_of_err_ne_zero {s : State} (h : s.err ≠ 0#4) (got : List Word) (rest : List HostMove) :
    (afterBulkDecCheck got rest s).moves = rest ∧
      (afterBulkDecCheck got rest s).source = s.source ∧
      (afterBulkDecCheck got rest s).result = s.result ∧
      (afterBulkDecCheck got rest s).seen.head? =
        some (.bulkDecoded got (if s.err = 1#4 ∧ s.nbytes = 0#4 then .clean else .failed)) ∧
      (afterBulkDecCheck got rest s).err = s.err ∧
      (afterBulkDecCheck got rest s).nbytes = s.nbytes := by
  rw [afterBulkDecCheck, if_neg h, bulkDecEnd_statusWord]
  exact ⟨rfl, rfl, rfl, rfl, rfl, rfl⟩

/-! ### The loop -/

/-- R136: the turns at the encodings of values decode them in order. -/
theorem runSteps_bulkDec_encoded (values : List Word) (tail : List Byte) (rest : List HostMove) (got : List Word)
    (s : State) (hmoves : s.moves = .bulkDec got :: rest) (hopen : s.decOpen = true) (hvalues : ∀ v ∈ values, s.decBase ≤ v)
    (hsource : s.source = values.flatMap (fun v => vlqPack (v - s.decBase)) ++ tail) :
    ∃ t, (∀ n, runSteps (3 * values.length + n) s = runSteps n t) ∧ t.moves = .bulkDec (got ++ values) :: rest ∧
      t.decOpen = true ∧ t.decBase = s.decBase ∧ t.source = tail := by
  induction values generalizing s got with
  | nil =>
    exact ⟨s, fun n => by rw [List.length_nil, Nat.mul_zero, Nat.zero_add], by rwa [List.append_nil], hopen, rfl, hsource⟩
  | cons v vs ih =>
    obtain ⟨hv, hvs⟩ := List.forall_mem_cons.mp hvalues
    rw [List.flatMap_cons, List.append_assoc] at hsource
    obtain ⟨hmoves', hopen', hbase, hsource'⟩ := afterBulkDecCheck_of_encoded hopen hv hsource got rest
    obtain ⟨t, hrun, htmoves, htopen, htbase, htsource⟩ :=
      ih (got ++ [v]) _ hmoves' hopen' (hbase.symm ▸ hvs) (hbase.symm ▸ hsource')
    refine ⟨t, fun n => ?_, by rwa [List.append_assoc] at htmoves, htopen, htbase.trans hbase, htsource⟩
    rw [List.length_cons, Nat.mul_add_one, Nat.add_right_comm]
    exact (runSteps_bulkDec hmoves _).trans (hrun n)

/-- R136: the turn whose command raises an error ends the loop and keeps what the command left. -/
theorem runSteps_bulkDec_of_raiseError {s : State} {got : List Word} {rest : List HostMove} {e : Err} {n : Nat}
    {left : List Byte} (hmoves : s.moves = .bulkDec got :: rest)
    (h : decodeValue (fun v => v) s = raiseError e n { s with source := left }) :
    ∃ t, runSteps 3 s = .next t ∧ t.moves = rest ∧ t.source = left ∧ t.result = s.result ∧
      t.seen.head? =
        some (.bulkDecoded got (if e.code = 1#4 ∧ BitVec.ofNat 4 n = 0#4 then .clean else .failed)) ∧
      t.err = e.code ∧ t.nbytes = BitVec.ofNat 4 n := by
  refine ⟨_, runSteps_bulkDec hmoves 0, ?_⟩
  rw [h]
  exact afterBulkDecCheck_of_err_ne_zero (s := raiseError e n { s with source := left }) (Err.code_ne_zero e) got rest

/-- Settles O50: the turns at the encodings decode them, and the next one finds the source at its end. -/
theorem bulkDecGivesTheEncodedValuesBack : Obligations.BulkDecGivesTheEncodedValuesBack := by
  intro s values tail rest hmoves hopen hvalues hsource hclear hrange
  obtain ⟨t, hrun, htmoves, htopen, htbase, rfl⟩ :=
    runSteps_bulkDec_encoded values tail rest [] s hmoves hopen hvalues hsource
  rw [← htbase] at hrange
  obtain ⟨u, hlast, humoves, husource, -, huseen, huerr, hunbytes⟩ :=
    runSteps_bulkDec_of_raiseError htmoves (decodeValue_of_insufficientData htopen hclear hrange _)
  have hlen : t.source.length ≤ 11 := by
    obtain ⟨hle, -⟩ := decodeTakesAtMostElevenBytes t.decBase t.source
    rwa [vlqUnpack_insufficientData hclear hrange] at hle
  have hcount := toNat_ofNat_four hlen
  have hempty : BitVec.ofNat 4 t.source.length = 0#4 ↔ t.source = [] := by
    rw [BitVec.toNat_eq, hcount]
    exact List.length_eq_zero_iff
  refine ⟨u, (hrun 3).trans hlast, humoves, husource, ?_, huerr, hunbytes ▸ hcount⟩
  rw [huseen]
  simp only [Err.code, true_and, hempty, List.nil_append]

/-- Settles O52: an overflow after the turns at the encodings, or MISUSE in the first turn. -/
theorem bulkDecFailsOnOverflowAndMisuse : Obligations.BulkDecFailsOnOverflowAndMisuse := by
  intro s values rest hmoves
  refine ⟨fun hopen hvalues bytes b left hsource hclear hrange hover => ?_, fun hclosed => ?_⟩
  · obtain ⟨t, hrun, htmoves, htopen, htbase, htsource⟩ :=
      runSteps_bulkDec_encoded values _ rest [] s hmoves hopen hvalues hsource
    rw [← htbase] at hrange hover
    obtain ⟨u, hlast, humoves, husource, -, huseen, huerr, hunbytes⟩ :=
      runSteps_bulkDec_of_raiseError htmoves (decodeValue_of_overflow htopen htsource hclear hrange hover _)
    have hlen : bytes.length + 1 ≤ 11 := by
      obtain ⟨hle, -⟩ := decodeTakesAtMostElevenBytes t.decBase (bytes ++ b :: left)
      rwa [vlqUnpack_overflow left hclear hrange hover] at hle
    exact ⟨u, (hrun 3).trans hlast, humoves, husource, huseen, huerr, hunbytes ▸ toNat_ofNat_four hlen⟩
  · exact runSteps_bulkDec_of_raiseError hmoves (decodeValue_of_closed hclosed _)

end Sys2Proof.Machine

/-! # Settling the statements about the signed commands (43_signed.md)

Each signed command runs the codec body of its unsigned one, with the zigzag before the encoder's and after the decoder's.
So the case lemmas of the two bodies give what the commands do. The host sequences need one lemma more for each body: that
the encoder's does not depend on the registers that differ, and that the decoder's `post` changes RESULT alone. -/

namespace Sys2Proof.Machine

/-! ### SENC (R150) -/

theorem exec_senc (s : State) : exec .senc s = .next (encodeValue (zzEncWord (toS64 s.operand)) s) :=
  exec_eq_next .senc s

/-- R100, R150: the image of OPERAND, read as two's complement in the library's terms, as a number. -/
theorem toNat_zzEncWord_toS64_eq {x : Word} {u : Nat}
    (hu : (u : Int) = if 0 ≤ x.toInt then 2 * x.toInt else -2 * x.toInt - 1) : (zzEncWord (toS64 x)).toNat = u := by
  rw [toNat_zzEncWord_toS64, toS64_eq_toInt, zzEnc]
  by_cases hpos : 0 ≤ x.toInt
  · rw [if_pos hpos] at hu ⊢
    omega
  · rw [if_neg hpos] at hu ⊢
    omega

/-- Settles O20: the three ends of the encoder's body, on the image of OPERAND. -/
theorem sencAppendsTheZigzagEncoding : Obligations.SencAppendsTheZigzagEncoding := by
  intro s u hu
  rw [exec_senc]
  obtain rfl := toNat_zzEncWord_toS64_eq hu
  refine ⟨fun hclosed => ?_, fun hopen hlt => ?_, fun hopen hle n hn hlow hhigh => ?_⟩
  · rw [encodeValue_of_closed hclosed]; rfl
  · rw [encodeValue_of_lt hopen hlt]; rfl
  · rw [encodeValue_of_mem_tier hopen hle hn hlow hhigh]

/-! ### SDEC (R151) -/

theorem exec_sdec (s : State) : exec .sdec s = .next (decodeValue zzDecWord s) := exec_eq_next .sdec s

/-- R101, R151: the signed value of an image that fits its word. -/
theorem zzDecWord_ofNat {u : Nat} (hu : u ≤ 2 ^ 64 - 1) :
    zzDecWord (BitVec.ofNat 64 u) = BitVec.ofInt 64 (if u % 2 = 0 then (u : Int) / 2 else -(((u : Int) + 1) / 2)) := by
  have hfit : u < 2 ^ 64 := by omega
  rw [zzDecWord_eq_ofInt, BitVec.toNat_ofNat, Nat.mod_eq_of_lt hfit]

/-- Settles O24: the four ends of the decoder's body, with the zigzag undone where it has a value. -/
theorem sdecStoresTheSignedDecodedValue : Obligations.SdecStoresTheSignedDecodedValue := by
  intro s
  rw [exec_sdec]
  refine ⟨fun hclosed => ?_, fun hopen => ⟨?_, fun bytes b rest hsource hclear hrange hover => ?_, fun hclear hrange => ?_⟩⟩
  · rw [decodeValue_of_closed hclosed]; rfl
  · rintro bytes rest u hsource hframed rfl hrange
    rw [decodeValue_of_framed hopen hsource hframed hrange, zzDecWord_ofNat hrange]; rfl
  · rw [decodeValue_of_overflow hopen hsource hclear hrange hover]; rfl
  · rw [decodeValue_of_insufficientData hopen hclear hrange]; rfl

/-! ### The signed commands as host sequences (R152) -/

/-- The encoder's body, once its value is given, does not look at OPERAND, RESULT or the outcome before it; it keeps the
two registers and overwrites the outcome. -/
theorem encodeValue_registers (v x r : Word) (e n : BitVec 4) (s : State) :
    encodeValue v { s with operand := x, result := r, err := e, nbytes := n } =
      { encodeValue v s with operand := x, result := r } := by
  rcases encodeValue_cases v s with ⟨hopen, h⟩ | ⟨hopen, hv, h⟩ | ⟨hopen, hv, h⟩ <;> rw [h]
  · exact encodeValue_of_closed (s := { s with operand := x, result := r, err := e, nbytes := n }) hopen v
  · exact encodeValue_of_lt (s := { s with operand := x, result := r, err := e, nbytes := n }) hopen hv
  · exact encodeValue_of_le (s := { s with operand := x, result := r, err := e, nbytes := n }) hopen hv

/-- Settles O25: SENC gives the encoder's body the value that the host carries from RESULT to OPERAND. -/
theorem sencIsZzencThenUenc : Obligations.SencIsZzencThenUenc := by
  intro s x
  refine ⟨_, _, _, exec_zzenc _, exec_uenc _, exec_senc _, ?_⟩
  rw [encodeValue_registers _ _ _ 0#4 0#4 { s with operand := x }]
  exact ⟨rfl, rfl, rfl⟩

/-- R134, R151: `post` acts on the RESULT of a decode without error and on nothing else. -/
theorem decodeValue_post (post : Word → Word) (s : State) :
    decodeValue post s =
      if (decodeValue (fun v => v) s).err = 0#4 then
        { decodeValue (fun v => v) s with result := post (decodeValue (fun v => v) s).result }
      else decodeValue (fun v => v) s := by
  rcases decodeValue_cases (fun v => v) s with ⟨hopen, h⟩ | ⟨hopen, hhow, h⟩ | ⟨hopen, hhow, h⟩ | ⟨hopen, v, hhow, h⟩ <;>
    rw [h]
  case inr.inr.inr =>
    rw [if_pos (succeed_err _ _)]
    simp only [decodeValue, hopen, hhow, if_true]
    rfl
  all_goals rw [raiseError_err, if_neg (Err.code_ne_zero _)]
  · exact decodeValue_of_closed hopen post
  all_goals simp only [decodeValue, hopen, hhow, if_true]

/-- Settles O26: on success SDEC's RESULT is the one ZZDEC makes of UDEC's, and an error leaves no value to act on. -/
theorem sdecIsUdecThenZzdec : Obligations.SdecIsUdecThenZzdec := by
  intro s
  refine ⟨_, _, _, exec_udec s, exec_zzdec _, exec_sdec s, ?_⟩
  rw [decodeValue_post zzDecWord s]
  by_cases hok : (decodeValue (fun v => v) s).err = 0#4
  · rw [if_pos hok]
    refine ⟨Iff.rfl, fun _ => ?_, fun herr => absurd hok herr⟩
    -- ZZDEC's ERR = 0 is the one the decode had.
    rw [← hok]
  · rw [if_neg hok]
    exact ⟨Iff.rfl, fun herr => absurd herr hok, fun _ => rfl⟩

end Sys2Proof.Machine

/-! # Settling the statements about channel control (44_control.md)

NOP and the two opens have one outcome, which `exec_eq_next` gives. Each close has two: it succeeds on its open channel, and
on a closed one it raises MISUSE and changes nothing else. -/

namespace Sys2Proof.Machine

/-! ### NOP and the opens (R160, R161, R163) -/

/-- Settles O27: success with no byte moved, on the state as it was. -/
theorem nopClearsTheOutcome : Obligations.NopClearsTheOutcome :=
  fun s => exec_eq_next .nop s

/-- Settles O28: success with no byte moved; ENC_OPEN is set without a look at what it was. -/
theorem encOpenSetsTheBaseline : Obligations.EncOpenSetsTheBaseline :=
  fun s => exec_eq_next .encOpen s

/-- Settles O30: success with no byte moved; DEC_OPEN is set without a look at what it was. -/
theorem decOpenSetsTheBaseline : Obligations.DecOpenSetsTheBaseline :=
  fun s => exec_eq_next .decOpen s

/-! ### The closes (R162, R164) -/

theorem exec_encClose (s : State) :
    exec .encClose s =
      .next (if s.encOpen then succeed 0 { sinkClose s with encOpen := false } else raiseError .misuse 0 s) :=
  exec_eq_next .encClose s

theorem exec_decClose (s : State) :
    exec .decClose s = .next (if s.decOpen then succeed 0 { s with decOpen := false } else raiseError .misuse 0 s) :=
  exec_eq_next .decClose s

/-- Settles O29: the open channel closes its sink, and the closed one makes no sink call. -/
theorem encCloseClosesTheSinkOnce : Obligations.EncCloseClosesTheSinkOnce := by
  intro s
  rw [exec_encClose]
  refine ⟨fun hopen => ?_, fun hclosed => ?_⟩
  · rw [if_pos hopen]; rfl
  · rw [if_neg (Bool.eq_false_iff.mp hclosed)]; rfl

/-- Settles O31: the open channel closes with its source as it was, and the closed one reports MISUSE. -/
theorem decCloseLeavesTheSource : Obligations.DecCloseLeavesTheSource := by
  intro s
  rw [exec_decClose]
  refine ⟨fun hopen => ?_, fun hclosed => ?_⟩
  · rw [if_pos hopen]; rfl
  · rw [if_neg (Bool.eq_false_iff.mp hclosed)]; rfl

end Sys2Proof.Machine

/-! # Settling the statements about errors (60_exceptions.md)

First progress: each of the host's moves answers a next state where its access is in the window and STATUS is legal, so no
run from a good state stops. Then the ways a command can end, once for all commands, with what each leaves of the state; the
statements about errors are read off from it. -/

namespace Sys2Proof.Machine

/-! ### Progress (R180, R189) -/

/-- Settles O6: an idle step answers the state itself. -/
theorem idleKeepsAllState : Obligations.IdleKeepsAllState := by
  intro s hmoves
  rw [step, hmoves]

/-- R180, R182: every word written to CMD, legal or not, is run to its end. -/
theorem exists_runCommand_next (c : Word) (s : State) : ∃ t, runCommand c s = .next t := by
  cases hc : decode c with
  | ok i => exact ⟨_, (runCommand_of_ok hc s).trans (exec_eq_next i s)⟩
  | error e => exact ⟨_, runCommand_of_error hc s⟩

theorem exists_hostStore_next {off : Nat} (hin : inWindow off = true) (width : Nat) (data : Word) (s : State) :
    ∃ t, hostStore off width data s = .next t := by
  rcases hostStore_cases off width data s with ⟨hout, -⟩ | ⟨-, -, h⟩ | ⟨-, -, h⟩ | ⟨-, -, h⟩
  · exact absurd ((inWindow_iff off).mp hin) (Nat.not_lt.mpr hout)
  · exact ⟨_, h⟩
  · rw [h]
    exact exists_runCommand_next data s
  · exact ⟨_, h⟩

theorem exists_resetDuringCommand_next (c : Word) (s : State) : ∃ t, resetDuringCommand c s = .next t := by
  obtain ⟨t, h⟩ := exists_runCommand_next c s
  exact ⟨cutShort s t, by rw [resetDuringCommand, h]⟩

/-- The two halves of the invariant exclude the two stops of a step: the fault of an access outside the window, and the
refusal of a read of a reserved STATUS. -/
theorem exists_step_next_of_good {s : State} (hs : s.Good) : ∃ t, step s = .next t := by
  have hlegal : s.StatusLegal := hs.1.statusLegal
  cases hmoves : s.moves with
  | nil => exact ⟨s, idleKeepsAllState s hmoves⟩
  | cons m rest =>
    have hin : moveInWindow m = true := hs.2 m (hmoves ▸ List.mem_cons_self)
    cases m with
    | store off width data =>
      rw [step_of_moves hmoves]
      exact exists_hostStore_next hin width data _
    | load off width =>
      exact ⟨_, (step_of_moves hmoves).trans (hostLoad_of_lt ((inWindow_iff off).mp hin) _ fun _ _ => hlegal)⟩
    | resetDuring c =>
      rw [step_of_moves hmoves]
      exact exists_resetDuringCommand_next c _
    | bulkEncCheck values => exact ⟨_, step_bulkEncCheck hmoves hlegal⟩
    | bulkDecCheck got => exact ⟨_, step_bulkDecCheck hmoves hlegal⟩
    | feed bytes => exact ⟨_, step_of_moves hmoves⟩
    | readSink => exact ⟨_, step_of_moves hmoves⟩
    | reset => exact ⟨_, step_of_moves hmoves⟩
    | bulkEnc values => exact ⟨_, step_of_moves hmoves⟩
    | bulkDec got => exact ⟨_, step_of_moves hmoves⟩

/-- Settles O47, by induction on the number of steps: a good state has a next state, which is good again. -/
theorem goodStatesNeverStop : Obligations.GoodStatesNeverStop := by
  intro s hs n
  induction n generalizing s with
  | zero => exact ⟨s, rfl, hs⟩
  | succ k ih =>
    obtain ⟨t, hstep⟩ := exists_step_next_of_good hs
    rw [runSteps_succ hstep]
    exact ih t (everyStepKeepsAGoodState s t hs hstep)

/-! ### The ends of a command (R181, R183, R187) -/

/-- R183: the command needs a channel and finds it closed. -/
def OnClosedChannel (i : Instr) (s : State) : Prop :=
  ((i = .uenc ∨ i = .senc ∨ i = .encClose) ∧ s.encOpen = false) ∨
  ((i = .udec ∨ i = .sdec ∨ i = .decClose) ∧ s.decOpen = false)

/-- How command `i` can end when it is run in state `s`. An error leaves the state as it was, up to the report and the bytes
a decode took from the head of the source. -/
inductive CommandEnd (i : Instr) (s : State) : State → Prop where
  | success {t : State} (hopen : ¬OnClosedChannel i s) (hok : t.err = 0#4) : CommandEnd i s t
  | misuse (hclosed : OnClosedChannel i s) : CommandEnd i s (raiseError .misuse 0 s)
  | precondition (hopen : ¬OnClosedChannel i s) (hi : i = .uenc ∨ i = .senc) : CommandEnd i s (raiseError .precondition 0 s)
  | badData {e : Err} {n : Nat} (hopen : ¬OnClosedChannel i s) (hi : i = .udec ∨ i = .sdec)
      (he : e = .insufficientData ∨ e = .overflow) (hn : n ≤ 11) :
      CommandEnd i s (raiseError e n { s with source := s.source.drop n })

theorem onClosedChannel_encode_iff {i : Instr} (hi : i = .uenc ∨ i = .senc) (s : State) :
    OnClosedChannel i s ↔ s.encOpen = false := by
  rcases hi with rfl | rfl <;> simp [OnClosedChannel]

theorem onClosedChannel_decode_iff {i : Instr} (hi : i = .udec ∨ i = .sdec) (s : State) :
    OnClosedChannel i s ↔ s.decOpen = false := by
  rcases hi with rfl | rfl <;> simp [OnClosedChannel]

theorem encodeValue_end {i : Instr} (hi : i = .uenc ∨ i = .senc) (v : Word) (s : State) :
    CommandEnd i s (encodeValue v s) := by
  have hiff := onClosedChannel_encode_iff hi s
  rcases encodeValue_cases v s with ⟨hopen, h⟩ | ⟨hopen, -, h⟩ | ⟨hopen, -, h⟩ <;> rw [h]
  · exact .misuse (hiff.mpr hopen)
  · exact .precondition (by simp [hiff, hopen]) hi
  · exact .success (by simp [hiff, hopen]) rfl

theorem decodeValue_end {i : Instr} (hi : i = .udec ∨ i = .sdec) (post : Word → Word) (s : State) :
    CommandEnd i s (decodeValue post s) := by
  have hiff := onClosedChannel_decode_iff hi s
  obtain ⟨hle, -, hrest, -⟩ := decodeTakesAtMostElevenBytes s.decBase s.source
  rcases decodeValue_cases post s with ⟨hopen, h⟩ | ⟨hopen, -, h⟩ | ⟨hopen, -, h⟩ | ⟨hopen, v, -, h⟩ <;> rw [h]
  · exact .misuse (hiff.mpr hopen)
  · rw [hrest]
    exact .badData (by simp [hiff, hopen]) hi (.inl rfl) hle
  · rw [hrest]
    exact .badData (by simp [hiff, hopen]) hi (.inr rfl) hle
  · exact .success (by simp [hiff, hopen]) rfl

theorem exec_end {i : Instr} {s t : State} (h : exec i s = .next t) : CommandEnd i s t := by
  rw [exec_eq_next] at h
  injection h with h
  subst h
  cases i
  case uenc => exact encodeValue_end (.inl rfl) _ s
  case senc => exact encodeValue_end (.inr rfl) _ s
  case udec => exact decodeValue_end (.inl rfl) _ s
  case sdec => exact decodeValue_end (.inr rfl) _ s
  case encClose | decClose =>
    dsimp only
    split
    next hopen => exact .success (by simp [OnClosedChannel, hopen]) rfl
    next hclosed => exact .misuse (by simpa [OnClosedChannel] using hclosed)
  all_goals exact .success (by simp [OnClosedChannel]) rfl

/-! ### The obligations -/

/-- Settles O32: of the ends of a command only the one on a closed channel has MISUSE's code. -/
theorem misuseExactlyOnAClosedChannel : Obligations.MisuseExactlyOnAClosedChannel := by
  intro i s
  obtain ⟨t, h⟩ : ∃ t, exec i s = .next t := ⟨_, exec_eq_next i s⟩
  refine ⟨t, h, ?_⟩
  change (t.err = 4#4 ↔ OnClosedChannel i s) ∧ _
  have of_err_ne {u : State} (hopen : ¬OnClosedChannel i s) (hne : u.err ≠ 4#4) :
      (u.err = 4#4 ↔ OnClosedChannel i s) ∧ (u.err = 4#4 → u = { s with err := 4#4, nbytes := 0#4 }) :=
    ⟨iff_of_false hne hopen, fun herr => absurd herr hne⟩
  cases exec_end h with
  | success hopen hok => exact of_err_ne hopen (by rw [hok]; decide)
  | misuse hclosed => exact ⟨iff_of_true rfl hclosed, fun _ => rfl⟩
  | precondition hopen hi => exact of_err_ne hopen (by rw [raiseError_err]; decide)
  | badData hopen hi he hn => exact of_err_ne hopen (by rcases he with rfl | rfl <;> rw [raiseError_err] <;> decide)

/-- Settles O33: `raiseError` writes the report only, and the bytes a decode took are the NBYTES it reports. -/
theorem errorsKeepAllButTheReport : Obligations.ErrorsKeepAllButTheReport := by
  intro i s t h herr
  cases exec_end h with
  | success hopen hok => exact absurd hok herr
  | misuse hclosed => simp [raiseError]
  | precondition hopen hi => simp [raiseError]
  | badData hopen hi he hn =>
    rw [if_pos hi, raiseError_nbytes, toNat_ofNat_four hn]
    rfl

/-- Settles O34: the outcome is one of R181's table, and the ends of a command say which command can have which error. -/
theorem everyCommandEndsInOneLegalOutcome : Obligations.EveryCommandEndsInOneLegalOutcome := by
  intro i s
  obtain ⟨t, h⟩ : ∃ t, exec i s = .next t := ⟨_, exec_eq_next i s⟩
  refine ⟨t, h, exec_outcomeLegal h, ?_⟩
  cases exec_end h with
  | success hopen hok => simp [hok]
  | misuse hclosed => simp [Err.code]
  | precondition hopen hi => simp [Err.code, hi]
  | badData hopen hi he hn => rcases he with rfl | rfl <;> simp [Err.code, hi]

end Sys2Proof.Machine

/-! # Settling the statements about reset and hazards (70_reset_and_hazards.md)

First a reset between commands. Then a reset during one, stated through what the whole command would have added to the sink
and taken from the source. Last which commands leave RESULT as it was. -/

namespace Sys2Proof.Machine

/-! ### Reset between commands (R200) -/

/-- R21: STATUS after reset, both channels open and nothing to report. -/
@[simp] theorem statusWord_resetRegisters (s : State) : statusWord (resetRegisters s) = 0x0000000000000300#64 := by
  simp [statusWord]

/-- Settles O48: the reset state reports no error and no bytes, and has no move pending. -/
theorem resetStateIsGood : Obligations.ResetStateIsGood :=
  ⟨.inl ⟨rfl, Nat.zero_le _⟩, List.forall_mem_nil _⟩

/-- Settles O44: the step is `resetRegisters`, which writes the registers of R21 and nothing else. -/
theorem resetGivesTheRegistersTheirValues : Obligations.ResetGivesTheRegistersTheirValues := by
  refine ⟨fun s rest hmoves => ⟨resetRegisters { s with moves := rest }, step_of_moves hmoves, ?_⟩, ?_⟩
  · simp
  · exact ⟨rfl, rfl, rfl, rfl, rfl⟩

/-! ### A reset during a command (R201, 93 U1) -/

/-- R53, R54, R182: every word written to CMD, legal or not, only adds events at the sink's end and takes bytes from the
source's head. -/
theorem runCommand_streams {c : Word} {s t : State} (h : runCommand c s = .next t) :
    (∃ events, t.sinkLog = s.sinkLog ++ events) ∧ ∃ bytes, s.source = bytes ++ t.source := by
  cases hc : decode c with
  | ok i =>
    rw [runCommand_of_ok hc] at h
    exact ⟨(exec_appends h).imp fun _ hevents => hevents.1, (exec_takes_head h).imp fun _ hbytes => hbytes.1⟩
  | error e =>
    rw [runCommand_of_error hc] at h
    injection h with h
    subst h
    exact ⟨⟨[], (List.append_nil _).symm⟩, ⟨[], rfl⟩⟩

theorem resetDuringCommand_of_next {c : Word} {s t : State} (h : runCommand c s = .next t) :
    resetDuringCommand c s = .next (cutShort s t) := by
  rw [resetDuringCommand, h]

/-- 93 U1: STATUS is among the registers, so a reset during a command leaves what one between commands does. -/
theorem statusWord_cutShort (s t : State) : statusWord (cutShort s t) = 0x0000000000000300#64 :=
  statusWord_resetRegisters s

theorem cutShort_sinkLog {s t : State} {events : List SinkEvent} (h : t.sinkLog = s.sinkLog ++ events) :
    (cutShort s t).sinkLog = s.sinkLog ++ events.take (Config.freeSinkCut s.freeCount) := by
  rw [cutShort, h, List.drop_left]

theorem cutShort_source {s t : State} {bytes : List Byte} (h : s.source = bytes ++ t.source) :
    (cutShort s t).source = bytes.drop (min (Config.freeSourceCut s.freeCount) bytes.length) ++ t.source := by
  have hlen : s.source.length - t.source.length = bytes.length := by
    rw [h, List.length_append, Nat.add_sub_cancel]
  rw [cutShort, hlen, h, List.drop_append_of_le_length (Nat.min_le_right _ _)]

/-- Settles O45: the whole command fixes the events added and the bytes taken, and `cutShort` keeps a prefix of each. -/
theorem resetDuringACommandLeavesPrefixes : Obligations.ResetDuringACommandLeavesPrefixes := by
  intro s c rest hmoves
  obtain ⟨t, hrun⟩ := exists_runCommand_next c { s with moves := rest }
  obtain ⟨⟨events, hsink⟩, bytes, hsource⟩ := runCommand_streams hrun
  have hstep : step s = .next (cutShort { s with moves := rest } t) :=
    (step_of_moves hmoves).trans (resetDuringCommand_of_next hrun)
  exact ⟨t, _, events, bytes, _, _, hrun, hstep, hsink, hsource, cutShort_sinkLog hsink, cutShort_source hsource,
    statusWord_cutShort _ t, rfl, rfl, rfl, rfl, rfl⟩

/-! ### A stale RESULT (R204) -/

/-- R23: a command that computes no value leaves RESULT, whatever its outcome. -/
theorem exec_keeps_result {i : Instr} {s t : State} (h : exec i s = .next t)
    (hi : ¬(i = .zzenc ∨ i = .zzdec ∨ i = .udec ∨ i = .sdec)) : t.result = s.result := by
  rw [exec_eq_next] at h
  injection h with h
  subst h
  cases i
  case zzenc | zzdec | udec | sdec => simp at hi
  case uenc | senc => dsimp only; rw [encodeValue_frame]
  case encClose | decClose => dsimp only; split <;> rfl
  all_goals rfl

/-- Settles O38: an error keeps RESULT in every command (R187), and without one the command is none of the four. -/
theorem resultIsStaleUnlessAValueCommandSucceeds : Obligations.ResultIsStaleUnlessAValueCommandSucceeds := by
  intro i s t h hstale
  by_cases herr : t.err = 0#4
  · exact exec_keeps_result h fun hi => hstale ⟨hi, herr⟩
  · rw [errorsKeepAllButTheReport i s t h herr]

end Sys2Proof.Machine

/-! # Settling the statement about reserved values of STATUS (93_implementation_defined.md U2)

The read is the defined access of STATUS, so of the ends of a host read only the refusal remains once ERR or NBYTES holds a
value never produced. -/

namespace Sys2Proof.Machine

/-- 93 U2 (log 6): the counterpart of `hostLoad_status` in a state whose report is not legal. -/
theorem hostLoad_status_of_not_legal {s : State} (h : ¬s.StatusLegal) : hostLoad 0x18 8 s = .refused .reservedStatus := by
  rcases hostLoad_cases 0x18 8 s with ⟨hout, -⟩ | ⟨-, hodd, -⟩ | ⟨-, -, -, hrefused⟩ | ⟨-, hlegal, -⟩
  · exact absurd hout (by decide)
  · exact absurd hodd (by decide)
  · exact hrefused
  · exact absurd ⟨rfl, h⟩ hlegal

/-- Settles O41: the step is the host's read of STATUS, and taking the move off leaves ERR and NBYTES as they were. -/
theorem readOfReservedStatusIsRefused : Obligations.ReadOfReservedStatusIsRefused :=
  fun _ _ hmoves hillegal => (step_of_moves hmoves).trans (hostLoad_status_of_not_legal hillegal)

end Sys2Proof.Machine
